-- ==== Sys2Proof/Word.lean ====
section
/-! DEFINITION. The value types of the core (spec/00_scope.md R11, R13): everything is unsigned, bit 0 is the least
significant bit. -/

namespace Sys2Proof

/-- One byte of the output byte stream, or one colour channel (R7, CHAN_BITS = 8). -/
abbrev Byte := BitVec 8

/-- A colour: red in bits 23:16, green in 15:8, blue in 7:0 (R13, R21). -/
abbrev Pixel := BitVec 24

/-- A 4-bit digit, legal range 0..9 (R13). -/
abbrev Digit := BitVec 4

/-- A 3-bit column or row number, legal range 0..4 (R13). -/
abbrev Coord := BitVec 3

/-- A 5-bit physical index, legal range 0..24 (R13). -/
abbrev Index := BitVec 5

/-- A 5x5 pattern: bit `5*y + x` is cell (column x, row y) (R30). -/
abbrev Glyph := BitVec 25

/-- The word a command arrives as, and the width in which a fault records a word (R70, R222). -/
abbrev CommandWord := BitVec 32

/-- The word an event arrives as (R79). -/
abbrev EventWord := BitVec 8

/-- A count of milliseconds (R160). TIME_WIDTH is a parameter, so the width is not in the type: a value of the core
is below `2 ^ TIME_WIDTH`, which `WellFormed` asks of an operand and `State.TimesFit` of a state (log 8). -/
abbrev Time := Nat

/-- The two buttons: button 0 is the increment button, button 1 the decrement button (R80). -/
inductive Button where
  | inc
  | dec
  deriving DecidableEq, Repr

/-- The level of a button line: high (1) is released, low (0) is pressed (R81). -/
inductive Level where
  | low
  | high
  deriving DecidableEq, Repr

/-- One value for each button: the pair `v[0]`, `v[1]` of R20. -/
structure PerButton (α : Type) where
  inc : α
  dec : α
  deriving DecidableEq, Repr

end Sys2Proof
end

