-- ==== Sys2Proof/Syntax.lean ====
section
/-! DEFINITION. The commands and events of the core, one constructor for each row of spec/opcode_table.json, and what
arrives at the two input ports (spec/30_encoding.md R70, R71, R79, R83). -/

namespace Sys2Proof

/-- The commands (R71) and events (R79). An operand has the width of its field, so out-of-range values of it are
instructions too (they fault when executed, R77); `now` is the time operand beside an event word (R79). -/
inductive Instr where
  /-- MAP x, y (R101) -/
  | map (x y : Coord)
  /-- SET index, r, g, b (R120) -/
  | set (index : Index) (r g b : Byte)
  /-- CLEAR (R122) -/
  | clear
  /-- RENDER d (R130 with src = 0) -/
  | renderD (d : Digit)
  /-- RENDER cur (R130 with src = 1) -/
  | renderCur
  /-- TRANSMIT (R125) -/
  | transmit
  /-- SERVICE (R190) -/
  | service
  /-- EDGE inc @ now (R171) -/
  | edgeInc (now : Time)
  /-- EDGE dec @ now (R171) -/
  | edgeDec (now : Time)
  /-- SAMPLE incLevel, decLevel @ now (R170) -/
  | sample (incLevel decLevel : Level) (now : Time)
  deriving DecidableEq, Repr

/-- What one of the two input ports delivers: a word on the command port, or a word on the input-event port with its
`now` (R83). -/
inductive PortWord where
  | command (w : CommandWord)
  | event (w : EventWord) (now : Time)
  deriving DecidableEq, Repr

/-- The fault codes of spec/60_exceptions.md R222. -/
inductive FaultCode where
  /-- ILLEGAL_COMMAND: raised by the command agent on a command word of R77's illegal list. -/
  | illegalCommand
  /-- ILLEGAL_EVENT: raised by the input agent on an event word of R82's illegal list. -/
  | illegalEvent
  /-- OPERAND_RANGE: raised by MAP, SET and RENDER d on an operand outside its range. -/
  | operandRange
  deriving DecidableEq, Repr

/-- A decoder's answer: a command or event with its fields, or an illegal verdict, named by the fault it raises
(R83). -/
inductive Verdict where
  | instr (i : Instr)
  | illegal (code : FaultCode)
  deriving DecidableEq, Repr

end Sys2Proof
end

