-- ==== Sys2Proof/Decode.lean ====
section
/-! DEFINITION. The decoder of both ports, total and rejecting by name, and after it the encoder (spec/30_encoding.md
R70 to R86). -/

namespace Sys2Proof

/-- Bits hi down to lo of a word, where the field has `len` bits and lo is its lowest (R11). -/
def field {n : Nat} (w : BitVec n) (lo len : Nat) : BitVec len :=
  w.extractLsb' lo len

/-- The level a bit of a SAMPLE word stands for: 1 high, 0 low (R81). -/
def levelOfBit (b : BitVec 1) : Level :=
  if b = 1#1 then .high else .low

/-- The bit a level is written as (R81). -/
def bitOfLevel : Level → BitVec 1
  | .low => 0#1
  | .high => 1#1

/-- A command of format N: its bits 28:0 must be 0 (R72). -/
def decodeFormatN (i : Instr) (w : CommandWord) : Verdict :=
  if field w 0 29 = 0#29 then .instr i else .illegal .illegalCommand

/-- Format M: y in bits 5:3, x in bits 2:0, bits 28:6 must be 0 (R73). -/
def decodeFormatM (w : CommandWord) : Verdict :=
  if field w 6 23 = 0#23 then .instr (.map (field w 0 3) (field w 3 3)) else .illegal .illegalCommand

/-- Format S: index in bits 28:24 and the colour's channels below it, no reserved bit (R74). -/
def decodeFormatS (w : CommandWord) : Verdict :=
  .instr (.set (field w 24 5) (field w 16 8) (field w 8 8) (field w 0 8))

/-- Format R: src in bit 28, digit in bits 3:0, bits 27:4 must be 0, and with src = 1 the digit field too (R75). -/
def decodeFormatR (w : CommandWord) : Verdict :=
  if field w 4 24 = 0#24 then
    if field w 28 1 = 0#1 then .instr (.renderD (field w 0 4))
    else if field w 0 4 = 0#4 then .instr .renderCur
    else .illegal .illegalCommand
  else .illegal .illegalCommand

/-- The decode of a command word by its operation field, bits 31:29 (R71, R86). -/
def decodeCommand (w : CommandWord) : Verdict :=
  let op := field w 29 3
  if op = 0b001#3 then decodeFormatM w
  else if op = 0b010#3 then decodeFormatS w
  else if op = 0b011#3 then decodeFormatN .clear w
  else if op = 0b100#3 then decodeFormatR w
  else if op = 0b101#3 then decodeFormatN .transmit w
  else if op = 0b110#3 then decodeFormatN .service w
  else .illegal .illegalCommand

/-- The decode of an EDGE word: the button in bit 0, bits 5:1 must be 0 (R80). -/
def decodeEdge (w : EventWord) (now : Time) : Verdict :=
  if field w 1 5 = 0#5 then
    if field w 0 1 = 0#1 then .instr (.edgeInc now) else .instr (.edgeDec now)
  else .illegal .illegalEvent

/-- The decode of a SAMPLE word: the increment line in bit 0, the decrement line in bit 1, bits 5:2 must be 0 (R81). -/
def decodeSample (w : EventWord) (now : Time) : Verdict :=
  if field w 2 4 = 0#4 then .instr (.sample (levelOfBit (field w 0 1)) (levelOfBit (field w 1 1)) now)
  else .illegal .illegalEvent

/-- The decode of an event word by its kind, bits 7:6 (R79, R86). -/
def decodeEvent (w : EventWord) (now : Time) : Verdict :=
  let kind := field w 6 2
  if kind = 0b01#2 then decodeEdge w now
  else if kind = 0b10#2 then decodeSample w now
  else .illegal .illegalEvent

/-- The decoder of either port (R83). -/
def decode : PortWord → Verdict
  | .command w => decodeCommand w
  | .event w now => decodeEvent w now

/-- The encoding tables of R72 to R75, R80 and R81, field by field from the most significant end. -/
def encode : Instr → PortWord
  | .map x y => .command (0b001#3 ++ 0#23 ++ y ++ x)
  | .set index r g b => .command (0b010#3 ++ index ++ r ++ g ++ b)
  | .clear => .command (0b011#3 ++ 0#29)
  | .renderD d => .command (0b100#3 ++ 0#1 ++ 0#24 ++ d)
  | .renderCur => .command (0b100#3 ++ 1#1 ++ 0#24 ++ 0#4)
  | .transmit => .command (0b101#3 ++ 0#29)
  | .service => .command (0b110#3 ++ 0#29)
  | .edgeInc now => .event (0b01#2 ++ 0#5 ++ 0#1) now
  | .edgeDec now => .event (0b01#2 ++ 0#5 ++ 1#1) now
  | .sample a b now => .event (0b10#2 ++ 0#4 ++ bitOfLevel b ++ bitOfLevel a) now

/-- The word that a fault of instruction `i` records: the 32-bit command word, or the event word widened with zeros
(R222). -/
def faultWord (i : Instr) : CommandWord :=
  match encode i with
  | .command w => w
  | .event w _ => w.zeroExtend 32

/-- Which port an instruction of the opcode table's width arrives at: 32 bits are a command, 8 bits an event (R83).
The bits above an event word are its `now`, which the table gives no bits (log 10). -/
def tablePortWord (nbits w : Nat) : Option PortWord :=
  if nbits = 32 then some (.command (BitVec.ofNat 32 w))
  else if nbits = 8 then some (.event (BitVec.ofNat 8 w) (w / 256))
  else none

/-- The instruction that the decoder reads from a word of the opcode table. -/
def decodeTableWord (nbits w : Nat) : Option Instr :=
  match tablePortWord nbits w with
  | none => none
  | some pw =>
    match decode pw with
    | .instr i => some i
    | .illegal _ => none

end Sys2Proof
end

