-- ==== Sys2Proof/Config.lean ====
section
/-! DEFINITION. The sizes the source settles (spec/00_scope.md R7), the parameters it leaves open (R8), and the model's
free values. Nothing here has a value that the spec does not state: what it leaves open is an opaque constant. -/

namespace Sys2Proof

/-- EDGE_INIT: what the edge detector holds at reset (R8, D14). -/
inductive EdgeInit where
  | idleHigh
  | firstSample
  deriving DecidableEq, Repr, Inhabited

/-- The parameters of R8, fixed for a whole run (R31, R252). They stand in one field of the state that nothing writes,
so a statement about every state is a statement about every value of them (log 1). -/
structure Params where
  /-- TIME_WIDTH -/
  timeWidth : Nat
  /-- EDGE_INIT -/
  edgeInit : EdgeInit
  /-- HOLD_US -/
  holdUs : Nat
  /-- GLYPH_TABLE, indexed by digit (R30) -/
  glyphs : Vector Glyph 10
  /-- COLOR_TABLE, indexed by digit (R30) -/
  colours : Vector Pixel 10
  deriving DecidableEq, Repr

/-- popcount of a glyph: the number of its lit cells (R8). -/
def litCells (g : Glyph) : Nat :=
  (List.range 25).countP fun k => g.getLsbD k

/-- The constraints that R8 puts on the parameters. -/
structure Params.Legal (p : Params) : Prop where
  timeWidth : 16 ≤ p.timeWidth
  holdUs : 100 ≤ p.holdUs
  glyphZero : litCells p.glyphs[0] = 17
  colourZero : p.colours[0] = 0xFF0000#24

namespace Config

/-- DEBOUNCE_MS (R7). -/
def debounceMs : Nat := 200

/-- LAST_INIT, decided 0 (R8, D11). -/
def lastInit : Time := 0

/-- TIME_WIDTH less the 16 that R8 asks for at least. FREE VALUE (log 1). -/
opaque extraTimeBits : Nat

/-- HOLD_US less the 100 that R8 asks for at least. FREE VALUE (log 1). -/
opaque extraHoldUs : Nat

/-- EDGE_INIT of this core. FREE VALUE (log 1). -/
opaque edgeInit : EdgeInit

/-- Ten 25-bit words, of which the glyph table is made. FREE VALUE (log 1). -/
opaque freeGlyphs : Vector Glyph 10

/-- Ten colours, of which the colour table is made. FREE VALUE (log 1). -/
opaque freeColours : Vector Pixel 10

/-- What the glyph table yields for a digit 10..15, which no run reaches (R23). FREE VALUE (log 3). -/
opaque glyphBeyond : Digit → Glyph

/-- What the colour table yields for a digit 10..15, which no run reaches (R23). FREE VALUE (log 3). -/
opaque colourBeyond : Digit → Pixel

/-- A free 25-bit word brought into the set of words with 17 lit cells: any word of that set is itself, and any other
goes to some word of it, so exactly the glyphs that R134 allows remain possible (log 2). -/
def withSeventeenLit (g : Glyph) : Glyph :=
  if litCells g = 17 then g else 0x1FFFF#25

/-- The parameters of this core: any that meet the constraints of R8, and nothing more is known of them. -/
def params : Params where
  timeWidth := 16 + extraTimeBits
  edgeInit := edgeInit
  holdUs := 100 + extraHoldUs
  glyphs := freeGlyphs.set 0 (withSeventeenLit freeGlyphs[0])
  colours := freeColours.set 0 0xFF0000#24

end Config

end Sys2Proof
end

