-- ==== Sys2Proof/Machine/State.lean ====
section
/-! DEFINITION. The state record of spec/10_state.md R20, the parameters it is configured with (R8, R30), the ports'
inputs (R232), the reasons a step can stop, and the state after reset (R250). Plain data throughout. -/

namespace Sys2Proof.Machine

open Sys2Proof

/-- PB: exactly 25 Pixels in strip-wiring order (R21). -/
abbrev PixelBuffer := Vector Pixel 25

/-- The command that a frame in progress belongs to (`cmd` of R28). A render carries the digit it shows: RENDER d its
operand, RENDER cur and SERVICE the digit they read (R261), which R28 asks of SERVICE's step after its frame (log 6). -/
inductive FrameCmd where
  | transmit
  | renderD (d : Digit)
  | renderCur (d : Digit)
  | service (d : Digit)
  deriving DecidableEq, Repr

/-- The atomic steps of SERVICE at which it waits outside its frame (R190): S2 reads the digit and paints, S4 clears the
flag. S1 takes the command, S3 is the frame. -/
inductive ServeStep where
  | s2
  | s4
  deriving DecidableEq, Repr

/-- cmd_phase: where the command agent is inside a command of more than one step (R28). -/
inductive Phase where
  /-- no command in progress -/
  | idle
  /-- the next byte of the frame to offer is byte `k`, 0..74 -/
  | push (k : Fin 75) (cmd : FrameCmd)
  /-- all 75 bytes accepted, the hold has not ended -/
  | holding (cmd : FrameCmd)
  /-- a SERVICE between its atomic steps, with the digit it read, if it has read one -/
  | serve (step : ServeStep) (d : Option Digit)
  deriving DecidableEq, Repr

/-- The fault record: code and word (R221, R222). -/
structure FaultRecord where
  code : FaultCode
  word : CommandWord
  deriving DecidableEq, Repr

/-- An event waiting at the input-event port: its word and the millisecond count of the time source at the event
(R79, R160). -/
structure PortEvent where
  word : EventWord
  count : Nat
  deriving DecidableEq, Repr

/-- Who moves at a step, and what the collaborators do at it (R56, R61, R233). -/
inductive Turn where
  /-- The command agent has the step; does the pixel transmitter accept the byte it offers, and what does the hold
  timer report (`some us`: `us` microseconds since the last accepted byte)? -/
  | command (accepts : Bool) (report : Option Nat)
  /-- The input agent has the step. -/
  | input
  /-- The reset input is asserted (R250). -/
  | reset
  deriving DecidableEq, Repr

/-- Why the machine stands still. -/
inductive Fault where
  /-- Raised by `step`, and by every meaning, in a state whose `fault` is set, when the next turn is not a reset: neither
  agent has a step after a fault (R221). Safe: the spec's core stands still there too. -/
  | stopped (code : FaultCode) (word : CommandWord)
  deriving DecidableEq, Repr

/-- Why an instruction has no meaning. -/
inductive Refusal where
  /-- Would be answered by an arm of `exec` for an instruction not modelled yet; no arm does so. Safe. -/
  | notModelled (mnemonic : String)
  deriving DecidableEq, Repr

/-- The state of the core. -/
structure State where
  /-- configuration, written by nothing (R31, R252) -/
  params : Params
  /-- PB (R21) -/
  pb : PixelBuffer
  /-- current_digit (R23) -/
  currentDigit : Digit
  /-- redraw_pending (R24) -/
  redrawPending : Bool
  /-- last_ts (R26) -/
  lastTs : PerButton Time
  /-- prev_level, `none` for unset (R27) -/
  prevLevel : PerButton (Option Level)
  /-- map_result (R34) -/
  mapResult : Option Index
  /-- fault (R221) -/
  fault : Option FaultRecord
  /-- cmd_phase (R28) -/
  phase : Phase
  /-- tx_log, oldest byte first (R29) -/
  txLog : List Byte
  /-- frames (R29) -/
  frames : Nat
  /-- the command port: words presented and not yet taken, in arrival order (R33, R232) -/
  cmdPort : List CommandWord
  /-- the input-event port: events presented and not yet taken, in arrival order (R226, R232) -/
  evPort : List PortEvent
  /-- who moves at the coming steps (R61; log 4) -/
  turns : List Turn
  /-- the pixel byte port's handshake: the transmitter accepts the byte offered now (R232) -/
  txAccepts : Bool
  /-- the hold-done input: what the hold timer reports now (R232; log 9) -/
  holdReport : Option Nat
  deriving DecidableEq, Repr

/-- The level that prev_level resets to, by EDGE_INIT (R20, D14). -/
def resetLevel : EdgeInit → Option Level
  | .idleHigh => some .high
  | .firstSample => none

/-- The state right after reset of a core with these parameters, with nothing at its ports (R20, R250). -/
def State.initial (p : Params) : State where
  params := p
  pb := Vector.replicate 25 0#24
  currentDigit := 0#4
  redrawPending := false
  lastTs := { inc := Config.lastInit, dec := Config.lastInit }
  prevLevel := { inc := resetLevel p.edgeInit, dec := resetLevel p.edgeInit }
  mapResult := none
  fault := none
  phase := .idle
  txLog := []
  frames := 0
  cmdPort := []
  evPort := []
  turns := []
  txAccepts := false
  holdReport := none

/-- The state right after reset of this core. -/
def State.reset : State :=
  State.initial Config.params

end Sys2Proof.Machine
end

