-- ==== Sys2Proof/Machine/Flags.lean ====
section
/-! DEFINITION. The core's one flag, redraw_pending (spec/10_state.md R24): set by an accepted edge, read and cleared by
SERVICE, by nothing else. -/

namespace Sys2Proof.Machine

/-- `redraw_pending <- 1` (R161). -/
def State.setRedraw (s : State) : State :=
  { s with redrawPending := true }

/-- `redraw_pending <- 0` (R190, step S4). -/
def State.clearRedraw (s : State) : State :=
  { s with redrawPending := false }

end Sys2Proof.Machine
end

