-- ==== Sys2Proof/Machine/Operands.lean ====
section
/-! DEFINITION. Operand forms: range checks (spec/20_memory.md R51), the coordinate mapper (R100), a Pixel and its
channels (R13), the digit's two updates (R162, R163), the time difference (R161) and the table look-ups (R30). -/

namespace Sys2Proof

/-- Entry `b` of a per-button pair (R20: index 0 is the increment button, index 1 the decrement button). -/
def PerButton.get {α : Type} (p : PerButton α) : Button → α
  | .inc => p.inc
  | .dec => p.dec

/-- The pair with entry `b` replaced. -/
def PerButton.set {α : Type} (p : PerButton α) (b : Button) (v : α) : PerButton α :=
  match b with
  | .inc => { p with inc := v }
  | .dec => { p with dec := v }

end Sys2Proof

namespace Sys2Proof.Machine

open Sys2Proof

/-- A logical position is inside the matrix (R50). -/
def coordsLegal (x y : Coord) : Bool :=
  decide (x.toNat ≤ 4) && decide (y.toNat ≤ 4)

/-- A physical index is inside the pixel buffer (R50). -/
def indexLegal (index : Index) : Bool :=
  decide (index.toNat ≤ 24)

/-- A digit names a glyph (R50). -/
def digitLegal (d : Digit) : Bool :=
  decide (d.toNat ≤ 9)

/-- The coordinate mapper on row and column numbers (R100). It is called on 0..4 only (R106). -/
def pidx (x y : Nat) : Nat :=
  if y % 2 = 0 then 24 - (5 * y + x) else 24 - (5 * y + (4 - x))

/-- The mapper's inverse, column and row of a physical index (R104). -/
def pinv (i : Nat) : Nat × Nat :=
  let r := 4 - i / 5
  let k := i % 5
  if r % 2 = 0 then (4 - k, r) else (k, r)

/-- The Pixel of three channels (R13). -/
def pixelOf (r g b : Byte) : Pixel :=
  r ++ g ++ b

/-- The red channel, bits 23:16. -/
def red (p : Pixel) : Byte :=
  p.extractLsb' 16 8

/-- The green channel, bits 15:8. -/
def green (p : Pixel) : Byte :=
  p.extractLsb' 8 8

/-- The blue channel, bits 7:0. -/
def blue (p : Pixel) : Byte :=
  p.extractLsb' 0 8

/-- What an accepted press of a button makes of the digit: `(d + 1) mod 10` (R162) or `(d + 9) mod 10` (R163). -/
def pressed (b : Button) (d : Digit) : Digit :=
  match b with
  | .inc => BitVec.ofNat 4 ((d.toNat + 1) % 10)
  | .dec => BitVec.ofNat 4 ((d.toNat + 9) % 10)

/-- `(now - last) mod 2^TIME_WIDTH` (R160, R161). -/
def elapsedMs (timeWidth : Nat) (now last : Time) : Nat :=
  (((now : Int) - (last : Int)) % (2 ^ timeWidth : Int)).toNat

/-- The `now` that a port with TIME_WIDTH bits delivers for a millisecond count: its low bits (R160). -/
def nowOfCount (timeWidth : Nat) (count : Nat) : Time :=
  count % 2 ^ timeWidth

/-- The edge detector: a falling edge is a low level after a high one (R168). -/
def falling (previous : Option Level) (level : Level) : Bool :=
  match previous, level with
  | some .high, .low => true
  | some .high, .high => false
  | some .low, .low => false
  | some .low, .high => false
  | none, .low => false
  | none, .high => false

/-- The glyph of a digit (R30); of a digit 10..15, which no run reaches, a free value (log 3). -/
def glyphOf (p : Params) (d : Digit) : Glyph :=
  if h : d.toNat < 10 then p.glyphs[d.toNat] else Config.glyphBeyond d

/-- The colour of a digit (R30); of a digit 10..15, which no run reaches, a free value (log 3). -/
def colourOf (p : Params) (d : Digit) : Pixel :=
  if h : d.toNat < 10 then p.colours[d.toNat] else Config.colourBeyond d

end Sys2Proof.Machine
end

