-- ==== Sys2Proof/Machine/Ops.lean ====
section
/-! DEFINITION. The shared operations: raising a fault (spec/60_exceptions.md R221), the pixel buffer and its painting
(R123, R131), the frame's bytes, its Push and Hold steps (R124), the debounce gate (R161), reset (R250), the output
ports (R232), and how the two agents run an instruction (R56). -/

namespace Sys2Proof.Machine

open Sys2Proof

/-- What a step answers. -/
abbrev Answer := Host.Outcome State Fault Refusal

/-! ### Faults -/

/-- The number of a fault code (R222). -/
def faultNumber : FaultCode → Nat
  | .illegalCommand => 1
  | .illegalEvent => 2
  | .operandRange => 3

/-- `raise Fault(code, word)`: recorded if no fault is recorded yet, and nothing else is written (R221, R223). The spec
gives no return from a fault: only reset clears the record (R221, R228). -/
def State.raiseFault (s : State) (code : FaultCode) (word : CommandWord) : State :=
  match s.fault with
  | none => { s with fault := some { code := code, word := word } }
  | some _ => s

/-- A step that an agent has only while no fault is recorded (R221). -/
def ifRunning (s : State) (k : State → Answer) : Answer :=
  match s.fault with
  | none => k s
  | some f => .fault (.stopped f.code f.word)

/-! ### The pixel buffer -/

/-- `PB[index] <- p` (R120); the callers have checked the index. -/
def State.setPixel (s : State) (index : Nat) (p : Pixel) : State :=
  { s with pb := s.pb.setIfInBounds index p }

/-- The buffer that `ClearPB()` leaves (R123). -/
def blackBuffer : PixelBuffer :=
  Vector.replicate 25 0#24

/-- `ClearPB()` (R123). -/
def State.clearPb (s : State) : State :=
  { s with pb := blackBuffer }

/-- The cells (x, y) of the matrix in row order, then column order (R131). -/
def cells : List (Nat × Nat) :=
  [0, 1, 2, 3, 4].flatMap fun y => [0, 1, 2, 3, 4].map fun x => (x, y)

/-- One cell of `Paint`: if it is lit in the glyph, its LED gets the colour (R131). -/
def paintCell (g : Glyph) (c : Pixel) (pb : PixelBuffer) (cell : Nat × Nat) : PixelBuffer :=
  if g.getLsbD (5 * cell.2 + cell.1) then pb.setIfInBounds (pidx cell.1 cell.2) c else pb

/-- `Paint` of a glyph in a colour (R131). -/
def paint (g : Glyph) (c : Pixel) (pb : PixelBuffer) : PixelBuffer :=
  cells.foldl (paintCell g c) pb

/-- `ClearPB()` then `Paint(d)`, with the machine's tables (R130, R190). -/
def State.renderDigit (s : State) (d : Digit) : State :=
  { s.clearPb with pb := paint (glyphOf s.params d) (colourOf s.params d) s.clearPb.pb }

/-! ### The frame -/

/-- Byte `k` of the frame of a buffer: green, red, blue of each Pixel, Pixels in strip order (R53, R124). -/
def frameByte (pb : PixelBuffer) (k : Fin 75) : Byte :=
  let p := pb[k.val / 3]
  if k.val % 3 = 0 then green p else if k.val % 3 = 1 then red p else blue p

/-- The 75 bytes of the frame of a buffer (R53, R124). -/
def frameBytes (pb : PixelBuffer) : List Byte :=
  (List.finRange 75).map (frameByte pb)

/-- The command a frame belongs to, as an instruction (R28). -/
def FrameCmd.instr : FrameCmd → Instr
  | .transmit => .transmit
  | .renderD d => .renderD d
  | .renderCur _ => .renderCur
  | .service _ => .service

/-- Where the command agent is when a command's hold has ended: at SERVICE's step S4, or done (R125, R130, R190). -/
def FrameCmd.afterHold : FrameCmd → Phase
  | .transmit => .idle
  | .renderD _ => .idle
  | .renderCur _ => .idle
  | .service d => .serve .s4 (some d)

/-- The command in progress, if there is one (R28). -/
def Phase.current : Phase → Option Instr
  | .idle => none
  | .push _ c => some c.instr
  | .holding c => some c.instr
  | .serve _ _ => some .service

/-- Where the command agent is when byte `k` has been accepted: at the next byte, or at the hold after byte 74
(R28). -/
def afterByte (k : Fin 75) (c : FrameCmd) : Phase :=
  if h : k.val + 1 < 75 then .push ⟨k.val + 1, h⟩ c else .holding c

/-- The start of `SendFrame()` for a command (R124). -/
def State.startFrame (s : State) (c : FrameCmd) : State :=
  { s with phase := .push 0 c }

/-- A Push step: if the transmitter accepts, byte `k` goes out and is logged; if not, the step is not enabled and the
command agent waits (R124, R127). -/
def State.pushByte (s : State) (k : Fin 75) (c : FrameCmd) : State :=
  if s.txAccepts then { s with txLog := s.txLog ++ [frameByte s.pb k], phase := afterByte k c } else s

/-- The hold timer reports that HOLD_US microseconds have passed since the last accepted byte (R124; log 9). -/
def State.holdDone (s : State) : Bool :=
  match s.holdReport with
  | none => false
  | some us => decide (s.params.holdUs ≤ us)

/-- The Hold step: when the hold is done the frame is counted and the command goes on; until then it waits (R124,
R126). -/
def State.endHold (s : State) (c : FrameCmd) : State :=
  if s.holdDone then { s with frames := s.frames + 1, phase := c.afterHold } else s

/-! ### How the agents run an instruction -/

/-- A command at its next atomic step: `first` when the command agent is Idle, its frame's Push or Hold step when that
frame is this command's own (R28, R56). A command other than the one in progress is not taken and waits (R126, R232;
log 11). -/
def runCommand (i : Instr) (first : State → State) (s : State) : Answer :=
  ifRunning s fun s =>
    match s.phase with
    | .idle => .next (first s)
    | .push k c => .next (if c.instr = i then s.pushByte k c else s)
    | .holding c => .next (if c.instr = i then s.endHold c else s)
    | .serve _ _ => .next s

/-- An event: one atomic step, whatever the command agent is doing (R56, R174). -/
def runEvent (effect : State → State) (s : State) : Answer :=
  ifRunning s fun s => .next (effect s)

/-! ### The debounce gate -/

/-- An edge of button `b` at `now` passes the gate: more than DEBOUNCE_MS since the last accepted edge of `b`
(R161). -/
def State.gateOpen (s : State) (b : Button) (now : Time) : Bool :=
  decide (Config.debounceMs < elapsedMs s.params.timeWidth now (s.lastTs.get b))

/-- What an accepted edge writes (R161). -/
def State.acceptEdge (s : State) (b : Button) (now : Time) : State :=
  { s.setRedraw with currentDigit := pressed b s.currentDigit, lastTs := s.lastTs.set b now }

/-- `Gate(b, now)`: accept the edge, or discard it and change nothing (R161, R167). -/
def State.gate (s : State) (b : Button) (now : Time) : State :=
  if s.gateOpen b now then s.acceptEdge b now else s

/-- `if e: Gate(b, now)` (R170). -/
def State.gateIf (s : State) (e : Bool) (b : Button) (now : Time) : State :=
  if e then s.gate b now else s

/-! ### Reset -/

/-- Reset while running: every field of R20 at its reset value, the configuration kept (R250, R252). What waits at the
ports is outside the core and stays (log 5). -/
def State.doReset (s : State) : State :=
  { State.initial s.params with
    cmdPort := s.cmdPort, evPort := s.evPort, turns := s.turns, txAccepts := s.txAccepts, holdReport := s.holdReport }

/-! ### Output ports (R232) -/

/-- The result port: map_result. -/
def State.resultPort (s : State) : Option Index :=
  s.mapResult

/-- The pixel byte port: the byte held for the transmitter, while a Push waits. -/
def State.bytePort (s : State) : Option Byte :=
  match s.phase, s.fault with
  | .push k _, none => some (frameByte s.pb k)
  | _, _ => none

/-- The fault output: the code's number and the recorded word. -/
def State.faultPort (s : State) : Option (Nat × CommandWord) :=
  s.fault.map fun f => (faultNumber f.code, f.word)

/-- The command port takes a word only when the command agent is Idle. -/
def State.commandReady (s : State) : Bool :=
  decide (s.phase = .idle) && s.fault.isNone

end Sys2Proof.Machine
end

