-- ==== Sys2Proof/Machine/Buffer.lean ====
section
/-! DEFINITION. SET, CLEAR and TRANSMIT (spec/41_pixel_buffer.md R120, R122, R125). -/

namespace Sys2Proof.Machine

open Sys2Proof

/-- SET's one step (R120). -/
def setStep (index : Index) (r g b : Byte) (s : State) : State :=
  if indexLegal index then s.setPixel index.toNat (pixelOf r g b)
  else s.raiseFault .operandRange (faultWord (.set index r g b))

/-- SET index, r, g, b (R120). -/
def execSet (index : Index) (r g b : Byte) (s : State) : Answer :=
  runCommand (.set index r g b) (setStep index r g b) s

/-- CLEAR (R122). -/
def execClear (s : State) : Answer :=
  runCommand .clear State.clearPb s

/-- TRANSMIT: taking the word starts the frame, then 75 Push steps and the Hold (R125, R56; log 12). -/
def execTransmit (s : State) : Answer :=
  runCommand .transmit (fun s => s.startFrame .transmit) s

end Sys2Proof.Machine
end

