-- ==== Sys2Proof/Machine/Input.lean ====
section
/-! DEFINITION. The input agent's events EDGE and SAMPLE (spec/42_input.md R170, R171). -/

namespace Sys2Proof.Machine

open Sys2Proof

/-- EDGE inc @ now (R171 with button 0). -/
def execEdgeInc (now : Time) (s : State) : Answer :=
  runEvent (fun s => s.gate .inc now) s

/-- EDGE dec @ now (R171 with button 1). -/
def execEdgeDec (now : Time) (s : State) : Answer :=
  runEvent (fun s => s.gate .dec now) s

/-- SAMPLE's one step: detect edges against the previous levels, keep the new levels, then gate the increment edge and
after it the decrement edge (R170, R172). -/
def sampleStep (incLevel decLevel : Level) (now : Time) (s : State) : State :=
  let e0 := falling s.prevLevel.inc incLevel
  let e1 := falling s.prevLevel.dec decLevel
  let s1 := { s with prevLevel := { inc := some incLevel, dec := some decLevel } }
  (s1.gateIf e0 .inc now).gateIf e1 .dec now

/-- SAMPLE incLevel, decLevel @ now (R170). -/
def execSample (incLevel decLevel : Level) (now : Time) (s : State) : Answer :=
  runEvent (sampleStep incLevel decLevel now) s

end Sys2Proof.Machine
end

