-- ==== Sys2Proof/Machine/Mapper.lean ====
section
/-! DEFINITION. MAP (spec/40_mapper.md R101). -/

namespace Sys2Proof.Machine

open Sys2Proof

/-- MAP's one step (R101). -/
def mapStep (x y : Coord) (s : State) : State :=
  if coordsLegal x y then { s with mapResult := some (BitVec.ofNat 5 (pidx x.toNat y.toNat)) }
  else s.raiseFault .operandRange (faultWord (.map x y))

/-- MAP x, y (R101). -/
def execMap (x y : Coord) (s : State) : Answer :=
  runCommand (.map x y) (mapStep x y) s

end Sys2Proof.Machine
end

