-- ==== Sys2Proof/Machine/Renderer.lean ====
section
/-! DEFINITION. RENDER d and RENDER cur (spec/41_pixel_buffer.md R130). -/

namespace Sys2Proof.Machine

open Sys2Proof

/-- The first step of RENDER d: the range check, then clear and paint; the frame follows (R130). -/
def renderStep (d : Digit) (s : State) : State :=
  if digitLegal d then (s.renderDigit d).startFrame (.renderD d)
  else s.raiseFault .operandRange (faultWord (.renderD d))

/-- RENDER d (R130). -/
def execRenderD (d : Digit) (s : State) : Answer :=
  runCommand (.renderD d) (renderStep d) s

/-- RENDER cur: the digit is read once, at the first step, and the frame shows it (R130, R261). -/
def execRenderCur (s : State) : Answer :=
  runCommand .renderCur (fun s => (s.renderDigit s.currentDigit).startFrame (.renderCur s.currentDigit)) s

end Sys2Proof.Machine
end

