-- ==== Sys2Proof/Machine/Sequencer.lean ====
section
/-! DEFINITION. SERVICE (spec/43_sequencer.md R190). -/

namespace Sys2Proof.Machine

open Sys2Proof

/-- S1: read the flag; with nothing pending the command is done and nothing changes (R190). -/
def serviceS1 (s : State) : State :=
  if s.redrawPending then { s with phase := .serve .s2 none } else s

/-- S2: read the digit, clear and paint; the frame (S3) follows (R190). -/
def serviceS2 (s : State) : State :=
  (s.renderDigit s.currentDigit).startFrame (.service s.currentDigit)

/-- S4: clear the flag, whatever was accepted during the frame; the command is done (R190, R260). -/
def serviceS4 (s : State) : State :=
  { s.clearRedraw with phase := .idle }

/-- SERVICE at its next atomic step: S2 or S4 if it is between its steps, else S1 or a step of its frame (R190). -/
def execService (s : State) : Answer :=
  match s.phase with
  | .serve .s2 _ => ifRunning s fun s => .next (serviceS2 s)
  | .serve .s4 _ => ifRunning s fun s => .next (serviceS4 s)
  | .idle => runCommand .service serviceS1 s
  | .push _ _ => runCommand .service serviceS1 s
  | .holding _ => runCommand .service serviceS1 s

end Sys2Proof.Machine
end

