-- ==== Sys2Proof/Machine/Dispatch.lean ====
section
/-! DEFINITION. One arm for each constructor of Instr: the meaning of a command is its next atomic step (spec/20_memory.md
R56), the meaning of an event its one step. -/

namespace Sys2Proof.Machine

open Sys2Proof

def exec (i : Instr) (s : State) : Host.Outcome State Fault Refusal :=
  match i with
  | .map x y => Sys2Proof.Machine.execMap x y s
  | .set index r g b => Sys2Proof.Machine.execSet index r g b s
  | .clear => Sys2Proof.Machine.execClear s
  | .renderD d => Sys2Proof.Machine.execRenderD d s
  | .renderCur => Sys2Proof.Machine.execRenderCur s
  | .transmit => Sys2Proof.Machine.execTransmit s
  | .service => Sys2Proof.Machine.execService s
  | .edgeInc now => Sys2Proof.Machine.execEdgeInc now s
  | .edgeDec now => Sys2Proof.Machine.execEdgeDec now s
  | .sample incLevel decLevel now => Sys2Proof.Machine.execSample incLevel decLevel now s

end Sys2Proof.Machine
end

