-- ==== Sys2Proof/Machine/Fetch.lean ====
section
/-! DEFINITION. Which instruction the next step runs (spec/60_exceptions.md R232, 20_memory.md R56, R61): the turn at the
front of the schedule names the agent; the command agent continues the command in progress or takes the next word, the
input agent takes the next event. -/

namespace Sys2Proof.Machine

open Sys2Proof

/-- What a step finds to do. -/
inductive Fetched where
  /-- run `i` from `s`, the state with the turn and the word taken -/
  | run (i : Instr) (s : State)
  /-- no instruction to run: the step leaves `s` -/
  | done (s : State)
  /-- the machine has stopped -/
  | halted (r : Fault)
  deriving DecidableEq, Repr

/-- Run the instruction a port word decodes to, or raise the fault of an illegal word, which records the word, an
event's widened with zeros (R77, R82, R222). -/
def runWord (pw : PortWord) (s : State) : Fetched :=
  match decode pw with
  | .instr i => .run i s
  | .illegal code =>
    match pw with
    | .command w => .done (s.raiseFault code w)
    | .event w _ => .done (s.raiseFault code (w.zeroExtend 32))

/-- The command agent's step: continue the command in progress; when Idle take the next word, or wait for one (R232,
R251). -/
def fetchCommand (s : State) : Fetched :=
  match s.phase.current with
  | some i => .run i s
  | none =>
    match s.cmdPort with
    | [] => .done s
    | w :: ws => runWord (.command w) { s with cmdPort := ws }

/-- The input agent's step: take the next event, with `now` the low TIME_WIDTH bits of its count, or wait for one (R160,
R226). -/
def fetchEvent (s : State) : Fetched :=
  match s.evPort with
  | [] => .done s
  | e :: es => runWord (.event e.word (nowOfCount s.params.timeWidth e.count)) { s with evPort := es }

/-- The next step's work. Reset works in every state; after a fault nothing else does (R221). With no turn given,
nothing happens (log 4). -/
def fetch (s : State) : Fetched :=
  match s.turns, s.fault with
  | .reset :: ts, _ => .done { s with turns := ts }.doReset
  | _, some f => .halted (.stopped f.code f.word)
  | [], none => .done s
  | .input :: ts, none => fetchEvent { s with turns := ts }
  | .command accepts report :: ts, none =>
    fetchCommand { s with turns := ts, txAccepts := accepts, holdReport := report }

/-- A word put where the next step takes its word from: at the front of its port, with that agent's turn next, the
command agent Idle and no fault recorded, since the word would not be taken otherwise (R221, R232). -/
def State.present (s : State) : PortWord → State
  | .command w =>
    { s with
      fault := none, phase := .idle, cmdPort := w :: s.cmdPort
      turns := .command false none :: s.turns }
  | .event w now =>
    { s with fault := none, evPort := { word := w, count := now } :: s.evPort, turns := .input :: s.turns }

end Sys2Proof.Machine
end

