-- ==== Sys2Proof/Machine/Assembler.lean ====
section
/-! DEFINITION. The assembly syntax and the pseudo-instructions (spec/30_encoding.md R84, R85). A line is first read as an
AsmLine, then assembled to the words it sends to the ports. -/

namespace Sys2Proof.Machine

open Sys2Proof

/-- A line of assembly, its numbers as written. -/
inductive AsmLine where
  | map (x y : Nat)
  | set (i r g b : Nat)
  | clear
  | renderD (d : Nat)
  | renderCur
  | transmit
  | service
  | edge (b : Button) (t : Nat)
  | sample (a b t : Nat)
  | pset (x y r g b : Nat)
  | boot
  | press (b : Button) (t : Nat)
  | idle (t : Nat)
  | tap (b : Button) (t1 t2 : Nat)
  deriving DecidableEq, Repr

/-! ### From a line to words -/

/-- A number as a field of `n` bits, refused if it does not fit (R84). -/
def fit (n v : Nat) : Option (BitVec n) :=
  if v < 2 ^ n then some (BitVec.ofNat n v) else none

/-- A time operand, refused if it does not fit TIME_WIDTH (R79; log 14). -/
def fitTime (timeWidth t : Nat) : Option Time :=
  if t < 2 ^ timeWidth then some t else none

/-- A line level, 0 or 1 (R84). -/
def fitLevel (v : Nat) : Option Level :=
  if v = 0 then some .low else if v = 1 then some .high else none

/-- SET with its operands checked. -/
def asmSet (i r g b : Nat) : Option Instr := do
  return .set (← fit 5 i) (← fit 8 r) (← fit 8 g) (← fit 8 b)

/-- EDGE with its time checked. -/
def asmEdge (timeWidth : Nat) (b : Button) (t : Nat) : Option Instr := do
  let t ← fitTime timeWidth t
  match b with
  | .inc => return .edgeInc t
  | .dec => return .edgeDec t

/-- SAMPLE with its operands checked. -/
def asmSample (timeWidth : Nat) (a b t : Nat) : Option Instr := do
  return .sample (← fitLevel a) (← fitLevel b) (← fitTime timeWidth t)

/-- The instructions of a line: one for a command or event (R84), the expansion of a pseudo-instruction (R85), none if
the assembler refuses it. -/
def expand (timeWidth : Nat) : AsmLine → Option (List Instr)
  | .map x y => do return [.map (← fit 3 x) (← fit 3 y)]
  | .set i r g b => do return [← asmSet i r g b]
  | .clear => some [.clear]
  | .renderD d => do return [.renderD (← fit 4 d)]
  | .renderCur => some [.renderCur]
  | .transmit => some [.transmit]
  | .service => some [.service]
  | .edge b t => do return [← asmEdge timeWidth b t]
  | .sample a b t => do return [← asmSample timeWidth a b t]
  | .pset x y r g b => if x ≤ 4 ∧ y ≤ 4 then do return [← asmSet (pidx x y) r g b] else none
  | .boot => some [.renderCur]
  | .press b t => do return [← asmEdge timeWidth b t]
  | .idle t => do return [← asmSample timeWidth 1 1 t]
  | .tap .inc t1 t2 => do return [← asmSample timeWidth 0 1 t1, ← asmSample timeWidth 1 1 t2]
  | .tap .dec t1 t2 => do return [← asmSample timeWidth 1 0 t1, ← asmSample timeWidth 1 1 t2]

/-- The words a line assembles to. -/
def assemble (timeWidth : Nat) (l : AsmLine) : Option (List PortWord) :=
  (expand timeWidth l).map (List.map encode)

/-! ### From text to a line (log 14) -/

/-- A word, a number, a comma or an at sign of a line. -/
abbrev Token := List Char

/-- The token collected so far, last character first, if there is one. -/
def flushToken (acc : List Char) : List Token :=
  match acc with
  | [] => []
  | c :: cs => [(c :: cs).reverse]

/-- The tokens of a line: blanks separate, a comma and an at sign stand alone, a semicolon starts a comment (R84). -/
def lexLine : List Char → List Char → List Token
  | [], acc => flushToken acc
  | c :: cs, acc =>
    if c = ';' then flushToken acc
    else if c = ' ' ∨ c = '\t' then flushToken acc ++ lexLine cs []
    else if c = ',' ∨ c = '@' then flushToken acc ++ [c] :: lexLine cs []
    else lexLine cs (c :: acc)

/-- The value of a digit in base 10 or 16. -/
def charValue (base : Nat) (c : Char) : Option Nat :=
  let v :=
    if '0' ≤ c ∧ c ≤ '9' then c.toNat - '0'.toNat
    else if 'a' ≤ c ∧ c ≤ 'f' then c.toNat - 'a'.toNat + 10
    else if 'A' ≤ c ∧ c ≤ 'F' then c.toNat - 'A'.toNat + 10
    else base
  if v < base then some v else none

/-- The number of a list of digits, the digits before them being worth `acc`. -/
def digitsValue (base : Nat) : List Char → Nat → Option Nat
  | [], acc => some acc
  | c :: cs, acc => (charValue base c).bind fun v => digitsValue base cs (acc * base + v)

/-- A number, decimal or `0x` hexadecimal (R84). -/
def numeral : Token → Option Nat
  | [] => none
  | [c] => digitsValue 10 [c] 0
  | c :: d :: cs =>
    if c = '0' ∧ d = 'x' then
      match cs with
      | [] => none
      | _ :: _ => digitsValue 16 cs 0
    else digitsValue 10 (c :: d :: cs) 0

/-- Numbers with commas between them. -/
def numbers : List Token → Option (List Nat)
  | [] => none
  | [t] => (numeral t).map fun n => [n]
  | t :: sep :: ts => if sep = [','] then do return (← numeral t) :: (← numbers ts) else none

/-- What stands before and after the at sign. -/
def splitAtSign : List Token → Option (List Token × List Token)
  | [] => none
  | t :: ts => if t = ['@'] then some ([], ts) else (splitAtSign ts).map fun p => (t :: p.1, p.2)

/-- A button's name. -/
def buttonNamed (t : Token) : Option Button :=
  if t = ['i', 'n', 'c'] then some .inc else if t = ['d', 'e', 'c'] then some .dec else none

/-- `inc @ t, …` or `dec @ t, …`: the button and the times. -/
def buttonTimes (ts : List Token) : Option (Button × List Nat) := do
  match ← splitAtSign ts with
  | ([b], times) => return (← buttonNamed b, ← numbers times)
  | _ => none

/-- `a, b @ t`: the numbers before the at sign and those after it. -/
def numbersTimes (ts : List Token) : Option (List Nat × List Nat) := do
  let p ← splitAtSign ts
  return (← numbers p.1, ← numbers p.2)

/-- A line without operands. -/
def bare (l : AsmLine) : List Token → Option AsmLine
  | [] => some l
  | _ :: _ => none

/-- The operands of MAP. -/
def readMap (ts : List Token) : Option AsmLine := do
  match ← numbers ts with
  | [x, y] => return .map x y
  | _ => none

/-- The operands of SET. -/
def readSet (ts : List Token) : Option AsmLine := do
  match ← numbers ts with
  | [i, r, g, b] => return .set i r g b
  | _ => none

/-- The operands of PSET. -/
def readPset (ts : List Token) : Option AsmLine := do
  match ← numbers ts with
  | [x, y, r, g, b] => return .pset x y r g b
  | _ => none

/-- The operand of RENDER: `cur` or a digit. -/
def readRender (ts : List Token) : Option AsmLine :=
  if ts = [['c', 'u', 'r']] then some .renderCur
  else do
    match ← numbers ts with
    | [d] => return .renderD d
    | _ => none

/-- The operands of EDGE. -/
def readEdge (ts : List Token) : Option AsmLine := do
  match ← buttonTimes ts with
  | (b, [t]) => return .edge b t
  | _ => none

/-- The operands of PRESS. -/
def readPress (ts : List Token) : Option AsmLine := do
  match ← buttonTimes ts with
  | (b, [t]) => return .press b t
  | _ => none

/-- The operands of TAP. -/
def readTap (ts : List Token) : Option AsmLine := do
  match ← buttonTimes ts with
  | (b, [t1, t2]) => return .tap b t1 t2
  | _ => none

/-- The operands of SAMPLE. -/
def readSample (ts : List Token) : Option AsmLine := do
  match ← numbersTimes ts with
  | ([a, b], [t]) => return .sample a b t
  | _ => none

/-- The operand of IDLE. -/
def readIdle (ts : List Token) : Option AsmLine := do
  match ← splitAtSign ts with
  | ([], times) =>
    match ← numbers times with
    | [t] => return .idle t
    | _ => none
  | _ => none

/-- A line with its first word and the tokens after it (R84, R85). -/
def readWords (word : Token) (ts : List Token) : Option AsmLine :=
  if word = ['M', 'A', 'P'] then readMap ts
  else if word = ['S', 'E', 'T'] then readSet ts
  else if word = ['C', 'L', 'E', 'A', 'R'] then bare .clear ts
  else if word = ['R', 'E', 'N', 'D', 'E', 'R'] then readRender ts
  else if word = ['T', 'R', 'A', 'N', 'S', 'M', 'I', 'T'] then bare .transmit ts
  else if word = ['S', 'E', 'R', 'V', 'I', 'C', 'E'] then bare .service ts
  else if word = ['E', 'D', 'G', 'E'] then readEdge ts
  else if word = ['S', 'A', 'M', 'P', 'L', 'E'] then readSample ts
  else if word = ['P', 'S', 'E', 'T'] then readPset ts
  else if word = ['B', 'O', 'O', 'T'] then bare .boot ts
  else if word = ['P', 'R', 'E', 'S', 'S'] then readPress ts
  else if word = ['I', 'D', 'L', 'E'] then readIdle ts
  else if word = ['T', 'A', 'P'] then readTap ts
  else none

/-- The line a text line holds: `some none` for a blank or comment line, `none` if it is not of the syntax. -/
def readLine (text : List Char) : Option (Option AsmLine) :=
  match lexLine text [] with
  | [] => some none
  | word :: ts => (readWords word ts).map some

end Sys2Proof.Machine
end

