-- ==== Sys2Proof/WellFormed.lean ====
section
/-! DEFINITION. Which instructions keep the contracts of the source: operands inside the legal ranges of R13 and R51
(the legal words of R77 and R87), and a time operand that fits TIME_WIDTH (R79). An instruction outside them is still
decoded and executed: MAP, SET and RENDER d then raise OPERAND_RANGE (R77). -/

namespace Sys2Proof

/-- The instruction's operands are in range, on a core whose TIME_WIDTH is `timeWidth`. -/
def wellFormed (timeWidth : Nat) (i : Instr) : Bool :=
  match i with
  | .map x y => decide (x.toNat ≤ 4) && decide (y.toNat ≤ 4)
  | .set index _ _ _ => decide (index.toNat ≤ 24)
  | .clear => true
  | .renderD d => decide (d.toNat ≤ 9)
  | .renderCur => true
  | .transmit => true
  | .service => true
  | .edgeInc now => decide (now < 2 ^ timeWidth)
  | .edgeDec now => decide (now < 2 ^ timeWidth)
  | .sample _ _ now => decide (now < 2 ^ timeWidth)

/-- The instruction's operands are in range, as a proposition. -/
abbrev WellFormed (timeWidth : Nat) (i : Instr) : Prop :=
  wellFormed timeWidth i = true

end Sys2Proof
end

