-- ==== Sys2Proof/Safety.lean ====
section
/-! DEFINITION. The terms in which claims about runs are made: values in range (spec/10_state.md R36), the bytes on the
wire against the buffer (R53, R64), the contracts of the source (R220), the end of a finite run (R257), and the
canonical program (R191). -/

namespace Sys2Proof.Machine

open Sys2Proof

/-- The state after reset of a core with parameters `p`, with these words and events presented and this schedule. -/
def State.started (p : Params) (cmds : List CommandWord) (evs : List PortEvent) (turns : List Turn) : State :=
  { State.initial p with cmdPort := cmds, evPort := evs, turns := turns }

/-- `n` steps, stopping at the first that answers no next state. -/
def runSteps : Nat → State → Answer
  | 0, s => .next s
  | n + 1, s =>
    match step s with
    | .next t => runSteps n t
    | .fault r => .fault r
    | .refused r => .refused r

/-- The command agent can start a command: no fault is recorded and none is in progress (R232). -/
structure State.Ready (s : State) : Prop where
  noFault : s.fault = none
  idle : s.phase = .idle

/-- Every kept time fits TIME_WIDTH (R13, R26). -/
def State.TimesFit (s : State) : Prop :=
  ∀ b, s.lastTs.get b < 2 ^ s.params.timeWidth

/-- The digit that a command's frame shows, if the command is a render (R261). -/
def FrameCmd.digit : FrameCmd → Option Digit
  | .transmit => none
  | .renderD d => some d
  | .renderCur d => some d
  | .service d => some d

/-- The digit that the frame in progress shows, if a render started it (R261). -/
def State.frameDigit (s : State) : Option Digit :=
  match s.phase with
  | .idle => none
  | .push _ c => c.digit
  | .holding c => c.digit
  | .serve .s2 _ => none
  | .serve .s4 d => d

/-- The digit is 0..9, the mapper's result 0..24, the digit a frame in progress shows 0..9, and the kept times fit
(R36). -/
structure State.InRange (s : State) : Prop where
  digit : s.currentDigit.toNat ≤ 9
  result : ∀ i, s.mapResult = some i → i.toNat ≤ 24
  shown : ∀ d, s.frameDigit = some d → d.toNat ≤ 9
  times : s.TimesFit

/-- A level is unset only on a core whose EDGE_INIT is FIRST_SAMPLE, and then on both lines at once (R27). -/
def State.UnsetOnlyFirst (s : State) : Prop :=
  (s.params.edgeInit = .idleHigh → ∀ b, s.prevLevel.get b ≠ none) ∧
    (s.prevLevel.inc = none ↔ s.prevLevel.dec = none)

/-- How many bytes of the frame in progress the transmitter has accepted. -/
def Phase.sent : Phase → Nat
  | .idle => 0
  | .push k _ => k.val
  | .holding _ => 75
  | .serve _ _ => 0

/-- The wire holds 75 bytes for every frame counted, and after them exactly the first bytes of the frame of the present
buffer, as many as have been accepted of the frame in progress (R29, R64, R126). -/
def State.OnWire (s : State) : Prop :=
  s.txLog.length = 75 * s.frames + s.phase.sent ∧
    s.txLog.drop (75 * s.frames) = (frameBytes s.pb).take s.phase.sent

/-- The buffer that a render of digit `d` leaves, whatever it held before (R132). -/
def picture (p : Params) (d : Digit) : PixelBuffer :=
  paint (glyphOf p d) (colourOf p d) blackBuffer

/-- While a RENDER d, a RENDER cur or a SERVICE sends its frame, the buffer is the picture of the digit it took or read
(R130, R190, R261). -/
def State.ShowsItsDigit (s : State) : Prop :=
  ∀ d, s.frameDigit = some d → s.pb = picture s.params d

/-- The illegal list of R77, on the word as a number. -/
def IllegalCommand (w : CommandWord) : Prop :=
  let op := w.toNat / 2 ^ 29
  let below := w.toNat % 2 ^ 29
  op = 0 ∨ op = 7 ∨ ((op = 3 ∨ op = 5 ∨ op = 6) ∧ below ≠ 0) ∨ (op = 1 ∧ below / 2 ^ 6 ≠ 0) ∨
    (op = 4 ∧ below % 2 ^ 28 / 2 ^ 4 ≠ 0) ∨ (op = 4 ∧ below / 2 ^ 28 = 1 ∧ below % 2 ^ 4 ≠ 0)

/-- The illegal list of R82, on the word as a number. -/
def IllegalEvent (w : EventWord) : Prop :=
  let kind := w.toNat / 2 ^ 6
  let below := w.toNat % 2 ^ 6
  kind = 0 ∨ kind = 3 ∨ (kind = 1 ∧ below / 2 ≠ 0) ∨ (kind = 2 ∧ below / 2 ^ 2 ≠ 0)

/-- The instruction is a command, not an event (R71, R79). -/
def isCommand : Instr → Bool
  | .map _ _ => true
  | .set _ _ _ _ => true
  | .clear => true
  | .renderD _ => true
  | .renderCur => true
  | .transmit => true
  | .service => true
  | .edgeInc _ => false
  | .edgeDec _ => false
  | .sample _ _ _ => false

/-- The other button. -/
def otherButton : Button → Button
  | .inc => .dec
  | .dec => .inc

/-- EDGE of a button (R171). -/
def edgeOf : Button → Time → Instr
  | .inc, now => .edgeInc now
  | .dec, now => .edgeDec now

/-- The gate's condition as R161 writes it: strictly more than 200 ms, modulo `2^TIME_WIDTH`, since the last accepted
edge of the button. -/
abbrev State.Accepts (s : State) (b : Button) (now : Time) : Prop :=
  200 < ((now : Int) - (s.lastTs.get b : Int)) % (2 ^ s.params.timeWidth : Int)

/-- The line of button `b` was high at the last SAMPLE and is low now (R168). -/
abbrev State.Falls (s : State) (b : Button) (level : Level) : Prop :=
  s.prevLevel.get b = some .high ∧ level = .low

/-- Instruction `i` delivers an edge of button `b` at `now` to the gate: an EDGE of it, or a SAMPLE in which its line
falls (R170, R171). -/
def State.Delivers (s : State) (i : Instr) (b : Button) (now : Time) : Prop :=
  i = edgeOf b now ∨ ∃ x y, i = .sample x y now ∧ s.Falls b (match b with | .inc => x | .dec => y)

/-- The buffer shows a glyph in a colour: at each cell's LED the colour if the cell is lit, else black (R130). -/
def ShowsGlyph (g : Glyph) (c : Pixel) (pb : PixelBuffer) : Prop :=
  ∀ x y, x ≤ 4 → y ≤ 4 → pb[pidx x y]? = some (if g.getLsbD (5 * y + x) then c else 0#24)

/-- The bytes of a buffer on the wire: green, red, blue of each Pixel in strip order (R52). -/
def wireBytes (pb : PixelBuffer) : List Byte :=
  pb.toList.flatMap fun p => [green p, red p, blue p]

/-- Every field of the state record has the value that R20 gives it at reset, on a core with parameters `p`; the fields
of the ports are not among them. -/
structure State.HasResetValues (p : Params) (s : State) : Prop where
  params : s.params = p
  pb : ∀ i < 25, s.pb[i]? = some 0#24
  currentDigit : s.currentDigit = 0
  redrawPending : s.redrawPending = false
  lastTs : ∀ b, s.lastTs.get b = 0
  prevLevel : ∀ b, s.prevLevel.get b = if p.edgeInit = .idleHigh then some .high else none
  mapResult : s.mapResult = none
  fault : s.fault = none
  phase : s.phase = .idle
  txLog : s.txLog = []
  frames : s.frames = 0

/-- The word decodes to an instruction with its operands in range (R87). -/
def legalWord (timeWidth : Nat) (pw : PortWord) : Bool :=
  match decode pw with
  | .instr i => wellFormed timeWidth i
  | .illegal _ => false

/-- The contracts of the source: every command and event presented is legal, its operands in range (R220). -/
structure State.KeepsContracts (s : State) : Prop where
  noFault : s.fault = none
  commands : ∀ w ∈ s.cmdPort, legalWord s.params.timeWidth (.command w) = true
  events : ∀ e ∈ s.evPort, legalWord s.params.timeWidth (.event e.word (nowOfCount s.params.timeWidth e.count)) = true

/-- A run of a finite command sequence has ended (R257). -/
def State.Ended (s : State) : Prop :=
  s.cmdPort = [] ∧ s.phase = .idle ∧ s.fault = none

/-- The source's initial render and `n` passes of its main loop (R191). -/
def canonicalProgram (n : Nat) : List CommandWord :=
  0x90000000#32 :: List.replicate n 0xC0000000#32

/-- A SERVICE has read its digit and painted it (S2) and has not yet cleared the flag (S4) (R190, R260). -/
def State.InServiceFrame (s : State) : Prop :=
  (∃ k d, s.phase = .push k (.service d)) ∨ (∃ d, s.phase = .holding (.service d)) ∨ ∃ d, s.phase = .serve .s4 d

/-- How many bytes of the frame in progress the transmitter has still to accept. -/
def Phase.unsent : Phase → Nat
  | .idle => 0
  | .push k _ => 75 - k.val
  | .holding _ => 0
  | .serve _ _ => 0

/-- How many frames are still to be counted for the command in progress, S2 past. -/
def Phase.uncounted : Phase → Nat
  | .idle => 0
  | .push _ _ => 1
  | .holding _ => 1
  | .serve _ _ => 0

/-- Turns of the command agent in which a SERVICE past its S2 comes to its end, with no event between: the bytes still
to send are accepted, the hold timer reports `us` microseconds, and S4 follows (R190). -/
def restOfService (us : Nat) (p : Phase) : List Turn :=
  List.replicate p.unsent (.command true none) ++
    (List.replicate p.uncounted (.command false (some us)) ++ [.command false none])

/-- Turns of the command agent in which the transmitter accepts a byte, then one in which the hold timer reports `us`
microseconds: what a whole frame takes (R124). -/
def frameTurns (us : Nat) : List Turn :=
  List.replicate 75 (.command true none) ++ [.command false (some us)]

end Sys2Proof.Machine
end

