-- ==== Sys2Proof/Certificates/Slice0/Obligations.lean ====
section
/-! DEFINITION. The statements for the provers, from the numbered rules of spec/. A next state is given whole, so each
result statement is a frame statement too: what the equation does not name is unchanged. Where a docstring names a
decision D<n>, or says that the spec derives the rule, the rule is marked so in spec/: it is the spec's own choice or
inference and not the source document's words. Where it names a log entry, the clause rests on the model's choice. -/

open Sys2Proof Sys2Proof.Machine

/-! ### Encoding and decoding -/

/-- Words written out from R72 to R75, R80 and R81 (decisions D2, D3) decode to what they stand for. -/
def Obligations.SpecWordsDecode : Prop :=
  decode (.command 0x20000008#32) = .instr (.map 0 1) ∧
  decode (.command 0x58FF0001#32) = .instr (.set 24 255 0 1) ∧
  decode (.command 0x60000000#32) = .instr .clear ∧
  decode (.command 0x80000009#32) = .instr (.renderD 9) ∧
  decode (.command 0x90000000#32) = .instr .renderCur ∧
  decode (.command 0xA0000000#32) = .instr .transmit ∧
  decode (.command 0xC0000000#32) = .instr .service ∧
  decode (.event 0x40#8 7) = .instr (.edgeInc 7) ∧
  decode (.event 0x41#8 7) = .instr (.edgeDec 7) ∧
  decode (.event 0x82#8 7) = .instr (.sample .low .high 7)

/-- Decoding an encoded instruction gives it back, every operand at every value of its field (R70 to R86,
decisions D2, D3). -/
def Obligations.DecodeOfEncode : Prop :=
  ∀ i : Instr, decode (encode i) = .instr i

/-- Each word has one meaning and each instruction one word: a word that decodes to `i` is the encoding of `i` (R78,
R86, decisions D2 to D4). -/
def Obligations.EncodeOfDecode : Prop :=
  ∀ (pw : PortWord) (i : Instr), decode pw = .instr i → encode i = pw

/-- A command word is refused exactly when it is on the illegal list of R77 (decision D4), and the command agent that takes
it records ILLEGAL_COMMAND with the word and changes nothing else (R221, R222, decision D21). -/
def Obligations.IllegalCommandFaults : Prop :=
  (∀ w, decode (.command w) = .illegal .illegalCommand ↔ IllegalCommand w) ∧
  ∀ s w ws accepts report ts, s.Ready → s.turns = .command accepts report :: ts → s.cmdPort = w :: ws →
    IllegalCommand w →
      step s = .next
        { s with
          turns := ts, txAccepts := accepts, holdReport := report, cmdPort := ws
          fault := some { code := .illegalCommand, word := w } }

/-- An event word is refused exactly when it is on the illegal list of R82 (decision D4), whatever its `now`, and the input
agent that takes it records ILLEGAL_EVENT with the word widened with zeros and changes nothing else (R222, decision
D21). -/
def Obligations.IllegalEventFaults : Prop :=
  (∀ w now, decode (.event w now) = .illegal .illegalEvent ↔ IllegalEvent w) ∧
  ∀ s e es ts, s.fault = none → s.turns = .input :: ts → s.evPort = e :: es → IllegalEvent e.word →
      step s = .next
        { s with
          turns := ts, evPort := es
          fault := some { code := .illegalEvent, word := BitVec.ofNat 32 e.word.toNat } }

/-! ### The mapper, MAP, SET, CLEAR -/

/-- MAP puts the index of R100 on the result port, and on a coordinate above 4 raises OPERAND_RANGE with its word
(R101, decisions D5, D23). -/
def Obligations.MapResult : Prop :=
  ∀ (x y : Coord) (s : State), s.Ready →
    exec (.map x y) s =
      if x.toNat ≤ 4 ∧ y.toNat ≤ 4 then
        .next
          { s with
            mapResult := some (BitVec.ofNat 5
              (if y.toNat % 2 = 0 then 24 - (5 * y.toNat + x.toNat) else 24 - (5 * y.toNat + (4 - x.toNat)))) }
      else
        .next
          { s with
            fault := some
              { code := .operandRange, word := BitVec.ofNat 32 (0x20000000 + y.toNat * 8 + x.toNat) } }

/-- `pidx` is a bijection of the 25 positions onto 0..24 and `pinv` its inverse, with the four values of R104, which
the spec derives from R100. -/
def Obligations.MapperBijective : Prop :=
  (∀ x < 5, ∀ y < 5, pidx x y < 25 ∧ pinv (pidx x y) = (x, y)) ∧
  (∀ i < 25, (pinv i).1 < 5 ∧ (pinv i).2 < 5 ∧ pidx (pinv i).1 (pinv i).2 = i) ∧
  pinv 0 = (4, 4) ∧ pinv 5 = (0, 3) ∧ pinv 19 = (4, 1) ∧ pinv 24 = (0, 0)

/-- SET writes the one entry it names, and on an index above 24 raises OPERAND_RANGE with its word (R120, decision D5). -/
def Obligations.SetResult : Prop :=
  ∀ (index : Index) (r g b : Byte) (s : State), s.Ready →
    (index.toNat ≤ 24 → ∃ pb : PixelBuffer,
      exec (.set index r g b) s = .next { s with pb := pb } ∧
        pb[index.toNat]? = some (BitVec.ofNat 24 (r.toNat * 65536 + g.toNat * 256 + b.toNat)) ∧
        ∀ j, j ≠ index.toNat → pb[j]? = s.pb[j]?) ∧
    (24 < index.toNat → exec (.set index r g b) s = .next
      { s with
        fault := some
          { code := .operandRange
            word := BitVec.ofNat 32
              (0x40000000 + index.toNat * 16777216 + r.toNat * 65536 + g.toNat * 256 + b.toNat) } })

/-- CLEAR sets every entry to black and changes nothing else (R122, R123). -/
def Obligations.ClearResult : Prop :=
  ∀ s : State, s.Ready →
    ∃ pb : PixelBuffer, exec .clear s = .next { s with pb := pb } ∧ ∀ i < 25, pb[i]? = some 0#24

/-! ### The frame and TRANSMIT -/

/-- TRANSMIT is taken: its frame begins with byte 0, and nothing else changes (R125; that taking the word is a step of its
own is the model's choice, log 12). -/
def Obligations.TransmitStart : Prop :=
  ∀ s : State, s.Ready → exec .transmit s = .next { s with phase := .push 0 .transmit }

/-- A Push step of a frame, at byte `k` = 3*i + j: the accepted byte is the green, red or blue channel of PB[i] for j =
0, 1, 2 (R53, which the spec derives from R52); without acceptance nothing changes (R124, R127, decision D19). -/
def Obligations.PushSendsByte : Prop :=
  ∀ (s : State) (c : FrameCmd) (k : Fin 75) (p : Pixel), s.fault = none → s.phase = .push k c →
    s.pb[k.val / 3]? = some p →
      exec c.instr s =
        if s.txAccepts then
          .next
            { s with
              txLog := s.txLog ++
                [BitVec.ofNat 8
                  (if k.val % 3 = 0 then p.toNat / 256 else if k.val % 3 = 1 then p.toNat / 65536 else p.toNat)]
              phase := if h : k.val < 74 then .push ⟨k.val + 1, by omega⟩ c else .holding c }
        else .next s

/-- A Hold step: when the hold timer reports HOLD_US or more, the frame is counted and the command is done, a SERVICE
going on to S4; without such a report nothing changes (R124, R126, decisions D18, D20; the report as a count of
microseconds is the model's choice, log 9). -/
def Obligations.HoldEndsFrame : Prop :=
  ∀ (s : State) (c : FrameCmd), s.fault = none → s.phase = .holding c →
    ((∃ us, s.holdReport = some us ∧ s.params.holdUs ≤ us) →
      exec c.instr s = .next
        { s with
          frames := s.frames + 1
          phase := match c with
            | .transmit => .idle
            | .renderD _ => .idle
            | .renderCur _ => .idle
            | .service d => .serve .s4 (some d) }) ∧
    ((∀ us, s.holdReport = some us → us < s.params.holdUs) → exec c.instr s = .next s)

/-- A whole TRANSMIT: the word taken (log 12), 75 accepted bytes in the order of R52, one hold (R124, R125, decisions D19,
D20). -/
def Obligations.TransmitSendsFrame : Prop :=
  ∀ (s : State) accepts report us ts ws, s.Ready → s.params.holdUs ≤ us →
    s.turns = .command accepts report :: (frameTurns us ++ ts) → s.cmdPort = 0xA0000000#32 :: ws →
      runSteps 77 s = .next
        { s with
          turns := ts, cmdPort := ws, txAccepts := false, holdReport := some us
          txLog := s.txLog ++ wireBytes s.pb, frames := s.frames + 1 }

/-! ### RENDER -/

/-- The first step of RENDER d: a digit 0..9 is painted into a cleared buffer and its frame begins (R130, R131, decisions
D7, D9); a digit above 9 raises OPERAND_RANGE with its word (decision D5). -/
def Obligations.RenderDigitFirstStep : Prop :=
  ∀ (d : Digit) (s : State), s.Ready →
    (∀ g c, s.params.glyphs[d.toNat]? = some g → s.params.colours[d.toNat]? = some c →
      ∃ pb, ShowsGlyph g c pb ∧
        exec (.renderD d) s = .next { s with pb := pb, phase := .push 0 (.renderD d) }) ∧
    (9 < d.toNat → exec (.renderD d) s = .next
      { s with fault := some { code := .operandRange, word := BitVec.ofNat 32 (0x80000000 + d.toNat) } })

/-- The first step of RENDER cur: the same with the current digit, and redraw_pending is left as it was (R130). A digit
10..15 is ruled out by the hypotheses; StepKeepsInRange says that no run reaches one. -/
def Obligations.RenderCurrentFirstStep : Prop :=
  ∀ (s : State) g c, s.Ready →
    s.params.glyphs[s.currentDigit.toNat]? = some g → s.params.colours[s.currentDigit.toNat]? = some c →
      ∃ pb, ShowsGlyph g c pb ∧ 
        exec .renderCur s = .next { s with pb := pb, phase := .push 0 (.renderCur s.currentDigit) }

/-- The closed form of ClearPB then Paint(d), and its independence of the buffer before (R132, which the spec derives from
R123, R131, R104). -/
def Obligations.RenderClosedForm : Prop :=
  ∀ (s : State) (q : PixelBuffer) (d : Digit) (g : Glyph) (c : Pixel) (i : Nat), i < 25 →
    s.params.glyphs[d.toNat]? = some g → s.params.colours[d.toNat]? = some c →
      (s.renderDigit d).pb[i]? = some (if g.getLsbD (5 * (pinv i).2 + (pinv i).1) then c else 0#24) ∧
      ({ s with pb := q }.renderDigit d).pb = (s.renderDigit d).pb

/-- RENDER 0 sets exactly the cells marked in glyph 0, 17 of them, to red and the other 8 to black, for every glyph table
the spec allows (R134). -/
def Obligations.GlyphZeroHasSeventeenRed : Prop :=
  ∀ s : State, s.Ready → s.params.Legal →
    ∃ pb : PixelBuffer, exec (.renderD 0) s = .next { s with pb := pb, phase := .push 0 (.renderD 0) } ∧
      ShowsGlyph s.params.glyphs[0] 0xFF0000#24 pb ∧
      pb.toList.count 0xFF0000#24 = 17 ∧ pb.toList.count 0#24 = 8

/-- A whole RENDER d: the picture of the digit in the buffer and its 75 bytes on the wire (R130, R124, decisions D19,
D20). -/
def Obligations.RenderSendsPicture : Prop :=
  ∀ (s : State) (d : Digit) accepts report us ts ws, s.Ready → d.toNat ≤ 9 → s.params.holdUs ≤ us →
    s.turns = .command accepts report :: (frameTurns us ++ ts) →
    s.cmdPort = BitVec.ofNat 32 (0x80000000 + d.toNat) :: ws →
      runSteps 77 s = .next
        { s with
          turns := ts, cmdPort := ws, txAccepts := false, holdReport := some us, pb := picture s.params d
          txLog := s.txLog ++ wireBytes (picture s.params d), frames := s.frames + 1 }

/-- Two RENDERs of the same digit with nothing between leave the same buffer and send the same 75 bytes twice
(R133, which the spec derives from R132). -/
def Obligations.RenderTwiceSame : Prop :=
  ∀ (s : State) (d : Digit) a r a' r' us us' ts ws, s.Ready → d.toNat ≤ 9 → s.params.holdUs ≤ us →
    s.params.holdUs ≤ us' →
    s.turns = .command a r :: (frameTurns us ++ .command a' r' :: (frameTurns us' ++ ts)) →
    s.cmdPort = BitVec.ofNat 32 (0x80000000 + d.toNat) :: BitVec.ofNat 32 (0x80000000 + d.toNat) :: ws →
      ∃ t u bytes, runSteps 77 s = .next t ∧ runSteps 154 s = .next u ∧
        u.pb = t.pb ∧ bytes.length = 75 ∧ t.txLog = s.txLog ++ bytes ∧ u.txLog = s.txLog ++ bytes ++ bytes

/-! ### SERVICE -/

/-- S1: with nothing pending SERVICE is done and nothing changes; else it goes on to S2 (R190, decision D17). -/
def Obligations.ServiceReadsFlag : Prop :=
  ∀ s : State, s.Ready →
    exec .service s = .next (if s.redrawPending then { s with phase := .serve .s2 none } else s)

/-- S2: the current digit is read and painted into a cleared buffer, and its frame begins (R190). A digit 10..15 is ruled
out by the hypotheses; StepKeepsInRange says that no run reaches one. -/
def Obligations.ServicePaintsDigit : Prop :=
  ∀ (s : State) o g c, s.fault = none → s.phase = .serve .s2 o →
    s.params.glyphs[s.currentDigit.toNat]? = some g → s.params.colours[s.currentDigit.toNat]? = some c →
      ∃ pb, ShowsGlyph g c pb ∧
        exec .service s = .next { s with pb := pb, phase := .push 0 (.service s.currentDigit) }

/-- S4: the flag is cleared and the command is done (R190, decision D17). -/
def Obligations.ServiceClearsFlag : Prop :=
  ∀ (s : State) o, s.fault = none → s.phase = .serve .s4 o →
    exec .service s = .next { s with redrawPending := false, phase := .idle }

/-- A whole SERVICE with a redraw pending and no event between: the current digit's picture, its 75 bytes, one hold, and
the flag cleared (R190, decisions D17, D19, D20). A digit 10..15, which no run reaches (StepKeepsInRange), is painted by the
free values of log 3. -/
def Obligations.ServiceShowsDigit : Prop :=
  ∀ (s : State) a1 r1 a2 r2 a3 r3 us ts ws, s.Ready → s.redrawPending = true → s.params.holdUs ≤ us →
    s.turns = .command a1 r1 :: .command a2 r2 :: (frameTurns us ++ .command a3 r3 :: ts) →
    s.cmdPort = 0xC0000000#32 :: ws →
      runSteps 79 s = .next
        { s with
          turns := ts, cmdPort := ws, txAccepts := a3, holdReport := r3, redrawPending := false
          pb := picture s.params s.currentDigit
          txLog := s.txLog ++ wireBytes (picture s.params s.currentDigit), frames := s.frames + 1 }

/-- The lost redraw: an edge, by EDGE or by SAMPLE, accepted anywhere after S2 and before S4 changes the digit and sets the
flag; the frame goes on with the buffer as painted, S4 clears the flag, and the next SERVICE does nothing (R260, decision
D17). A SAMPLE whose two edges are both accepted leaves the digit as it was and is no lost redraw
(GateOrderUnobservable). -/
def Obligations.LostRedraw : Prop :=
  ∀ (s : State) (i : Instr) (b : Button) (now : Time) (us : Nat) ts, s.fault = none → s.InServiceFrame →
    s.currentDigit.toNat ≤ 9 → s.params.holdUs ≤ us → s.turns = restOfService us s.phase ++ ts →
    s.Delivers i b now → s.Accepts b now → ¬ (s.Delivers i (otherButton b) now ∧ s.Accepts (otherButton b) now) →
      ∃ t u, exec i s = .next t ∧
        t = { s with
          currentDigit := pressed b s.currentDigit, redrawPending := true, lastTs := s.lastTs.set b now
          prevLevel := t.prevLevel } ∧
        t.currentDigit ≠ s.currentDigit ∧
        runSteps (restOfService us s.phase).length t = .next u ∧
        u = { t with
          redrawPending := false, phase := .idle, turns := ts, txAccepts := false, holdReport := none
          txLog := s.txLog ++ (wireBytes s.pb).drop (75 - s.phase.unsent), frames := s.frames + s.phase.uncounted } ∧
        exec .service u = .next u

/-- From power-on with the canonical program and no press, the initial render sends one frame of digit 0, its 17 lit cells
red, and leaves redraw_pending 0 (R191, R253, decision D24). -/
def Obligations.BootShowsZero : Prop :=
  ∀ (p : Params) n evs accepts report us ts, p.Legal → p.holdUs ≤ us →
    ∃ t, runSteps 77
        (State.started p (canonicalProgram n) evs (.command accepts report :: (frameTurns us ++ ts))) = .next t ∧
      t.frames = 1 ∧ t.pb = picture p 0 ∧ t.pb.toList.count 0xFF0000#24 = 17 ∧ t.txLog = wireBytes (picture p 0) ∧ t.redrawPending = false ∧
      t.cmdPort = List.replicate n 0xC0000000#32 ∧ t.phase = .idle

/-! ### EDGE, SAMPLE and the gate -/

/-- The gate on an EDGE of either button: accepted strictly above 200 ms, the digit goes up or down modulo 10, the flag is
set and the timestamp kept; else nothing changes (R161 to R163, R167, R171; the modulus is decision D10). -/
def Obligations.EdgeThroughGate : Prop :=
  ∀ (s : State) (now : Time), s.fault = none →
    exec (.edgeInc now) s =
      (if s.Accepts .inc now then
        .next
          { s with
            currentDigit := BitVec.ofNat 4 ((s.currentDigit.toNat + 1) % 10), redrawPending := true
            lastTs := { s.lastTs with inc := now } }
      else .next s) ∧
    exec (.edgeDec now) s =
      (if s.Accepts .dec now then
        .next
          { s with
            currentDigit := BitVec.ofNat 4 ((s.currentDigit.toNat + 9) % 10), redrawPending := true
            lastTs := { s.lastTs with dec := now } }
      else .next s)

/-- SAMPLE keeps the new levels always, and gates the falling edges it finds, increment first (R168, R170, decisions
D14, D15). -/
def Obligations.SampleResult : Prop :=
  ∀ (s : State) (a b : Level) (now : Time), s.fault = none →
    let up := s.Falls .inc a ∧ s.Accepts .inc now
    let down := s.Falls .dec b ∧ s.Accepts .dec now
    let d1 := if up then (s.currentDigit.toNat + 1) % 10 else s.currentDigit.toNat
    exec (.sample a b now) s = .next
      { s with
        prevLevel := { inc := some a, dec := some b }
        currentDigit := BitVec.ofNat 4 (if down then (d1 + 9) % 10 else d1)
        redrawPending := s.redrawPending || decide (up ∨ down)
        lastTs :=
          { inc := if up then now else s.lastTs.inc
            dec := if down then now else s.lastTs.dec } }

/-- A SAMPLE that finds both edges runs the increment gate and then the decrement gate in its one step; either order
leaves the same state, and if both accept, the digit it had, with the flag set (R172, decision D15). -/
def Obligations.GateOrderUnobservable : Prop :=
  (∀ (s : State) (now : Time), s.fault = none → s.prevLevel = { inc := some .high, dec := some .high } →
    exec (.sample .low .low now) s =
      .next (({ s with prevLevel := { inc := some .low, dec := some .low } }.gate .inc now).gate .dec now)) ∧
  ∀ (s : State) (now : Time), s.currentDigit.toNat ≤ 9 →
    (s.gate .inc now).gate .dec now = (s.gate .dec now).gate .inc now ∧
    (s.Accepts .inc now → s.Accepts .dec now →
      ((s.gate .inc now).gate .dec now).currentDigit = s.currentDigit ∧
        ((s.gate .inc now).gate .dec now).redrawPending = true ∧
        ((s.gate .inc now).gate .dec now).lastTs = { inc := now, dec := now })

/-- An edge of one button neither reads nor writes the other's timestamp; an accepted one writes the shared digit and
flag (R164). -/
def Obligations.ButtonsIndependent : Prop :=
  ∀ (s : State) (b : Button) (now v : Time), s.fault = none →
    ∃ t, exec (edgeOf b now) s = .next t ∧
      exec (edgeOf b now) { s with lastTs := s.lastTs.set (otherButton b) v } =
        .next { t with lastTs := t.lastTs.set (otherButton b) v } ∧
      t.lastTs.get (otherButton b) = s.lastTs.get (otherButton b) ∧
      (s.Accepts b now → t.redrawPending = true ∧ t.currentDigit = pressed b s.currentDigit)

/-- A button's timestamp changes on an accepted edge of that button only and then to its `now`, a discarded EDGE changes
nothing; after one accepted at T, edges of that button at T + 150, T + 300 and T + 450 are discarded, accepted, discarded
(R165, which the spec derives from R161). -/
def Obligations.WindowRunsFromAccepted : Prop :=
  (∀ (i : Instr) (s t : State) (b : Button), exec i s = .next t → t.lastTs.get b ≠ s.lastTs.get b →
    ∃ now, s.Delivers i b now ∧ s.Accepts b now ∧ t.lastTs.get b = now) ∧
  ∀ (s : State) (b : Button) (now : Time), s.fault = none → s.params.Legal →
    (¬ s.Accepts b now → exec (edgeOf b now) s = .next s) ∧
    (s.Accepts b now → ∃ t u, exec (edgeOf b now) s = .next t ∧ t.lastTs = s.lastTs.set b now ∧
      exec (edgeOf b (now + 150)) t = .next t ∧
      exec (edgeOf b (now + 300)) t = .next u ∧ u.lastTs = s.lastTs.set b (now + 300) ∧
      u.currentDigit = pressed b t.currentDigit ∧
      exec (edgeOf b (now + 450)) u = .next u)

/-- With the timestamps at LAST_INIT = 0, no edge at 200 ms or earlier is accepted, by EDGE or by SAMPLE (R166,
which the spec derives from R161 and decision D11). -/
def Obligations.BootWindowDiscards : Prop :=
  ∀ (s : State) (now : Time), s.fault = none → s.params.Legal → now ≤ 200 →
    (∀ b, s.lastTs.get b = 0 → exec (edgeOf b now) s = .next s) ∧
    (s.lastTs = { inc := 0, dec := 0 } → ∀ a b, exec (.sample a b now) s =
      .next { s with prevLevel := { inc := some a, dec := some b } })

/-! ### Which agent reads and writes what -/

/-- An event completes in its one step whatever the command agent does, and neither reads nor writes PB, map_result,
tx_log, frames or cmd_phase (R174). -/
def Obligations.EventsIgnoreCommandState : Prop :=
  ∀ (i : Instr) (s : State), isCommand i = false → s.fault = none →
    ∃ t, exec i s = .next t ∧
      ∀ (q : PixelBuffer) (m : Option Index) (l : List Byte) (n : Nat) (p : Phase),
        exec i { s with pb := q, mapResult := m, txLog := l, frames := n, phase := p } =
          .next { t with pb := q, mapResult := m, txLog := l, frames := n, phase := p }

/-- A command neither reads nor writes the timestamps and the edge detector, never writes the digit, and writes the flag
in SERVICE's S4 only (the columns of R20, R24, R26). -/
def Obligations.CommandsIgnoreInputState : Prop :=
  ∀ (i : Instr) (s : State), isCommand i = true → s.fault = none →
    ∃ t, exec i s = .next t ∧ t.currentDigit = s.currentDigit ∧
      (t.redrawPending ≠ s.redrawPending → i = .service ∧ ∃ d, s.phase = .serve .s4 d) ∧
      ∀ (ts : PerButton Time) (ls : PerButton (Option Level)),
        exec i { s with lastTs := ts, prevLevel := ls } = .next { t with lastTs := ts, prevLevel := ls }

/-- Each field of the state record is written only by the commands and events that R20's table names for it, and no
instruction writes the parameters, the ports or the schedule. -/
def Obligations.NamedWritersOnly : Prop :=
  ∀ (i : Instr) (s t : State), exec i s = .next t →
    (t.pb ≠ s.pb →
      (∃ n r g b, i = .set n r g b) ∨ i = .clear ∨ (∃ d, i = .renderD d) ∨ i = .renderCur ∨ i = .service) ∧
    (t.currentDigit ≠ s.currentDigit ∨ t.lastTs ≠ s.lastTs → isCommand i = false) ∧
    (t.redrawPending ≠ s.redrawPending → isCommand i = false ∨ i = .service) ∧
    (t.prevLevel ≠ s.prevLevel → ∃ a b now, i = .sample a b now) ∧
    (t.mapResult ≠ s.mapResult → ∃ x y, i = .map x y) ∧
    (t.txLog ≠ s.txLog ∨ t.frames ≠ s.frames →
      i = .transmit ∨ (∃ d, i = .renderD d) ∨ i = .renderCur ∨ i = .service) ∧
    (t.phase ≠ s.phase → i = .transmit ∨ (∃ d, i = .renderD d) ∨ i = .renderCur ∨ i = .service) ∧
    (t.fault ≠ s.fault → (∃ x y, i = .map x y) ∨ (∃ n r g b, i = .set n r g b) ∨ ∃ d, i = .renderD d) ∧
    t = { t with
      params := s.params, cmdPort := s.cmdPort, evPort := s.evPort, turns := s.turns, txAccepts := s.txAccepts
      holdReport := s.holdReport }

/-- redraw_pending: the gate sets it whenever it accepts an edge, SERVICE reads it at S1 and clears it at S4, after its
render, and nothing else writes it (R24). -/
def Obligations.RedrawFlagWriters : Prop :=
  (∀ (s : State) b now, s.Accepts b now → (s.gate b now).redrawPending = true) ∧
  (∀ s : State, s.Ready →
    exec .service s = .next (if s.redrawPending then { s with phase := .serve .s2 none } else s)) ∧
  (∀ (s : State) o, s.fault = none → s.phase = .serve .s4 o →
    exec .service s = .next { s with redrawPending := false, phase := .idle }) ∧
  ∀ (i : Instr) (s t : State), exec i s = .next t → t.redrawPending ≠ s.redrawPending →
    (t.redrawPending = true ∧ ∃ b now, s.Delivers i b now ∧ s.Accepts b now) ∨
      (t.redrawPending = false ∧ i = .service ∧ ∃ o, s.phase = .serve .s4 o)

/-- While a command is in progress no other command is taken: it waits, and nothing changes (R126, R232, decision D18;
what `exec` answers of such a command is the model's choice, log 11). -/
def Obligations.OtherCommandsWait : Prop :=
  ∀ (i j : Instr) (s : State), isCommand i = true → s.fault = none → s.phase.current = some j → i ≠ j →
    exec i s = .next s

/-- While a frame is sent and held, no step but a reset changes the buffer: the frame shows the buffer it began with
(R125, which the spec derives from R22 and R56). -/
def Obligations.BufferFixedDuringFrame : Prop :=
  ∀ (s t : State), (∀ ts, s.turns ≠ .reset :: ts) → (∃ c, s.phase = .holding c ∨ ∃ k, s.phase = .push k c) →
    step s = .next t → t.pb = s.pb

/-! ### Faults -/

/-- A fault is recorded once; after it neither agent has a step, no instruction runs, and only a reset clears it; a
faulted state is no end of a run (R221, decision D21; that such a step answers a fault is the model's choice, log 7). -/
def Obligations.FaultStopsBothAgents : Prop :=
  (∀ (s : State) code w, s.fault = none →
    s.raiseFault code w = { s with fault := some { code := code, word := w } }) ∧
  ∀ (s : State) (f : FaultRecord), s.fault = some f →
    (∀ code w, s.raiseFault code w = s) ∧
    (∀ i, exec i s = .fault (.stopped f.code f.word)) ∧
    ((∀ ts, s.turns ≠ .reset :: ts) → step s = .fault (.stopped f.code f.word)) ∧
    (∀ ts, s.turns = .reset :: ts → ∃ t, step s = .next t ∧ t.fault = none) ∧
    ¬ s.Ended

/-- A step that raises a fault writes nothing of the core but the record, and a command raises none after its first
step (R223, which the spec derives). -/
def Obligations.FaultsArePrecise : Prop :=
  ∀ (s t : State) (f : FaultRecord), s.fault = none → t.fault = some f →
    (∀ i, exec i s = .next t → t = { s with fault := some f } ∧ (isCommand i = true → s.phase = .idle)) ∧
    (step s = .next t →
      t = { s with
        fault := some f, turns := t.turns, cmdPort := t.cmdPort, evPort := t.evPort, txAccepts := t.txAccepts
        holdReport := t.holdReport } ∧
      (∀ a r ts, s.turns = .command a r :: ts → s.phase = .idle))

/-! ### The step -/

/-- The command agent, Idle, takes the next word and runs the command it decodes to (R33, R232). -/
def Obligations.StepRunsCommandWord : Prop :=
  ∀ (s : State) accepts report ts w ws i, s.Ready → s.turns = .command accepts report :: ts →
    s.cmdPort = w :: ws → decode (.command w) = .instr i →
      step s = exec i { s with turns := ts, txAccepts := accepts, holdReport := report, cmdPort := ws }

/-- The command agent continues the command in progress, and takes no word (R56, R232). -/
def Obligations.StepContinuesCommand : Prop :=
  ∀ (s : State) accepts report ts i, s.fault = none → s.turns = .command accepts report :: ts →
    s.phase.current = some i →
      step s = exec i { s with turns := ts, txAccepts := accepts, holdReport := report }

/-- The input agent takes the next event, whatever the command agent is doing, with `now` the low TIME_WIDTH bits of its
count, and runs it (R160, R226, decisions D10, D31). -/
def Obligations.StepRunsEventWord : Prop :=
  ∀ (s : State) ts e es i, s.fault = none → s.turns = .input :: ts → s.evPort = e :: es →
    decode (.event e.word (e.count % 2 ^ s.params.timeWidth)) = .instr i →
      step s = exec i { s with turns := ts, evPort := es }

/-- With no word or event at its port, nothing of the core changes (R251); nor with no turn given, which is the
model's choice (log 4). -/
def Obligations.StepWaitsForInput : Prop :=
  (∀ s : State, s.fault = none → s.turns = [] → step s = .next s) ∧
  (∀ (s : State) ts, s.fault = none → s.turns = .input :: ts → s.evPort = [] → step s = .next { s with turns := ts }) ∧
  (∀ (s : State) accepts report ts, s.Ready → s.turns = .command accepts report :: ts → s.cmdPort = [] →
    step s = .next { s with turns := ts, txAccepts := accepts, holdReport := report })

/-- The input agent's step always succeeds and takes its event, in the middle of any command (R174, R192). -/
def Obligations.InputAgentNeverBlocked : Prop :=
  ∀ (s : State) ts e es, s.fault = none → s.turns = .input :: ts → s.evPort = e :: es →
    ∃ t, step s = .next t ∧ t.evPort = es ∧ t.turns = ts ∧ t.phase = s.phase ∧ t.pb = s.pb ∧ t.txLog = s.txLog ∧
      t.frames = s.frames ∧ t.mapResult = s.mapResult

/-- A word presented by `withFetchWord` is the instruction the next step runs, the core otherwise as it was, but Idle for
a command (the model's choice, log 10). -/
def Obligations.PresentedWordRunsNext : Prop :=
  ∀ (s : State) nbits w i, w < 2 ^ nbits → decodeTableWord nbits w = some i →
    ∃ u, step (s.withFetchWord nbits w) = exec i u ∧ u.fault = none ∧
      u.phase = (if isCommand i then .idle else s.phase) ∧ u.params = s.params ∧ u.pb = s.pb ∧
      u.currentDigit = s.currentDigit ∧ u.redrawPending = s.redrawPending ∧ u.lastTs = s.lastTs ∧
      u.prevLevel = s.prevLevel ∧ u.mapResult = s.mapResult ∧ u.txLog = s.txLog ∧ u.frames = s.frames ∧
      u.turns = s.turns ∧ u.cmdPort = s.cmdPort ∧ u.evPort = s.evPort

/-! ### Reset -/

/-- A reset sets every field of the state record to its value of R20, in every state, abandoning a command in progress,
and keeps the parameters; the machine's state after reset has the same values (R250, R252; the values but the digit's are
the spec's decisions D11 to D14, D18, D19, D21, D23). -/
def Obligations.ResetSetsEveryField : Prop :=
  State.reset.HasResetValues Config.params ∧
  ∀ (s : State) ts, s.turns = .reset :: ts →
    ∃ t, step s = .next t ∧ t.HasResetValues s.params

/-! ### Invariants: each holds at the start and every step keeps it -/

/-- No step changes the tables, a reset included (R252), nor TIME_WIDTH, EDGE_INIT and HOLD_US: that these are fixed for a
run rests on R8 (decisions D8, D10, D14, D20) and on the model's choice to hold them in one field (log 1). -/
def Obligations.StepKeepsParams : Prop :=
  ∀ s t : State, step s = .next t → t.params = s.params

/-- Values stay in range: the digit 0..9, the mapper's result 0..24, the times below 2^TIME_WIDTH (R13, R23, R36, which the
spec derives). -/
def Obligations.StepKeepsInRange : Prop :=
  ∀ s t : State, s.InRange → step s = .next t → t.InRange

/-- The wire holds whole frames and then exactly the accepted part of the frame of the present buffer (R29, R64, R126,
decisions D18, D19). -/
def Obligations.StepKeepsOnWire : Prop :=
  ∀ s t : State, s.OnWire → step s = .next t → t.OnWire

/-- While RENDER d, RENDER cur or SERVICE sends its frame, the buffer is the picture of the digit it took or read (R261,
which the spec derives; that the phase holds the digit is log 6). -/
def Obligations.StepKeepsShowsItsDigit : Prop :=
  ∀ s t : State, s.ShowsItsDigit → step s = .next t → t.ShowsItsDigit

/-- A level is unset only on a core whose EDGE_INIT is FIRST_SAMPLE and only before its first SAMPLE since reset: the two
levels are unset together, a SAMPLE sets both, no other instruction writes them, and no step but a reset unsets one (R27,
decision D14). -/
def Obligations.StepKeepsUnsetOnlyFirst : Prop :=
  (∀ s t : State, s.UnsetOnlyFirst → step s = .next t → t.UnsetOnlyFirst) ∧
  (∀ (s t : State) b, (∀ ts, s.turns ≠ .reset :: ts) → step s = .next t → s.prevLevel.get b ≠ none →
    t.prevLevel.get b ≠ none) ∧
  ∀ (i : Instr) (s t : State), exec i s = .next t →
    (∀ x y now, i = .sample x y now → ∀ b, t.prevLevel.get b ≠ none) ∧
    ((∀ x y now, i ≠ .sample x y now) → t.prevLevel = s.prevLevel)

/-- While the source's contracts are kept, every step succeeds and raises no fault, and they stay kept (R220). -/
def Obligations.StepKeepsContracts : Prop :=
  ∀ s : State, s.KeepsContracts → ∃ t, step s = .next t ∧ t.KeepsContracts

/-- The invariants hold at reset, and at the start of every run of a core with any parameters, whatever is presented; the
contracts hold there if the presented words are legal; the parameters of this core meet R8's constraints (log 1, log 2). -/
def Obligations.InvariantsHoldAtStart : Prop :=
  (∀ p cmds evs turns,
    (State.started p cmds evs turns).InRange ∧ (State.started p cmds evs turns).OnWire ∧
    (State.started p cmds evs turns).ShowsItsDigit ∧ (State.started p cmds evs turns).UnsetOnlyFirst ∧
    ((∀ w ∈ cmds, legalWord p.timeWidth (.command w) = true) →
      (∀ e ∈ evs, legalWord p.timeWidth (.event e.word (nowOfCount p.timeWidth e.count)) = true) →
        (State.started p cmds evs turns).KeepsContracts)) ∧
  State.reset = State.started Config.params [] [] [] ∧ State.reset.params.Legal

/-! ### The assembler -/

/-- The assembler's word of every line of R84, and its refusal of operands that do not fit their fields (decision D25; a time
operand's limit is the model's choice, log 14). -/
def Obligations.AssemblerWords : Prop :=
  ∀ timeWidth : Nat,
    (∀ x y, assemble timeWidth (.map x y) =
      if x ≤ 7 ∧ y ≤ 7 then some [.command (BitVec.ofNat 32 (0x20000000 + y * 8 + x))] else none) ∧
    (∀ i r g b, assemble timeWidth (.set i r g b) =
      if i ≤ 31 ∧ r ≤ 255 ∧ g ≤ 255 ∧ b ≤ 255 then
        some [.command (BitVec.ofNat 32 (0x40000000 + i * 16777216 + r * 65536 + g * 256 + b))] else none) ∧
    (∀ d, assemble timeWidth (.renderD d) =
      if d ≤ 15 then some [.command (BitVec.ofNat 32 (0x80000000 + d))] else none) ∧
    (∀ a b t, assemble timeWidth (.sample a b t) =
      if a ≤ 1 ∧ b ≤ 1 ∧ t < 2 ^ timeWidth then some [.event (BitVec.ofNat 8 (0x80 + b * 2 + a)) t] else none) ∧
    (∀ t, assemble timeWidth (.edge .inc t) = if t < 2 ^ timeWidth then some [.event 0x40#8 t] else none) ∧
    (∀ t, assemble timeWidth (.edge .dec t) = if t < 2 ^ timeWidth then some [.event 0x41#8 t] else none) ∧
    assemble timeWidth .clear = some [.command 0x60000000#32] ∧
    assemble timeWidth .renderCur = some [.command 0x90000000#32] ∧
    assemble timeWidth .transmit = some [.command 0xA0000000#32] ∧
    assemble timeWidth .service = some [.command 0xC0000000#32]

/-- Each pseudo-instruction assembles to the words of its expansion (R85, decision D25). -/
def Obligations.PseudoInstructions : Prop :=
  ∀ timeWidth : Nat,
    (∀ x y r g b, assemble timeWidth (.pset x y r g b) =
      if x ≤ 4 ∧ y ≤ 4 then assemble timeWidth (.set (pidx x y) r g b) else none) ∧
    assemble timeWidth .boot = assemble timeWidth .renderCur ∧
    (∀ b t, assemble timeWidth (.press b t) = assemble timeWidth (.edge b t)) ∧
    (∀ t, assemble timeWidth (.idle t) = assemble timeWidth (.sample 1 1 t)) ∧
    (∀ b t1 t2 ws1 ws2,
      assemble timeWidth (.sample (if b = .inc then 0 else 1) (if b = .inc then 1 else 0) t1) = some ws1 →
      assemble timeWidth (.sample 1 1 t2) = some ws2 → assemble timeWidth (.tap b t1 t2) = some (ws1 ++ ws2))
end

