-- ==== Sys2Proof/Laws/Config.lean ====
section
/-! SUPPORT. What is known of the free parts of the configuration. -/

namespace Sys2Proof.Config

open Sys2Proof

/-- Bringing a word into the set of words with 17 lit cells does so. -/
theorem litCells_withSeventeenLit (g : Glyph) : litCells (withSeventeenLit g) = 17 := by
  unfold withSeventeenLit
  split
  · assumption
  · decide

/-- Every word with 17 lit cells is reached: the table loses none of the glyphs the spec allows. -/
theorem withSeventeenLit_of_lit {g : Glyph} (h : litCells g = 17) : withSeventeenLit g = g :=
  if_pos h

end Sys2Proof.Config
end

