-- ==== Sys2Proof/Laws/State.lean ====
section
/-! SUPPORT. One lemma for each field of the state under each plain update, so that no later proof unfolds a record
update. -/

namespace Sys2Proof.Machine

open Sys2Proof

variable (s : State)

/-! ### setRedraw -/

@[simp] theorem State.setRedraw_params : (s.setRedraw).params = s.params := rfl
@[simp] theorem State.setRedraw_pb : (s.setRedraw).pb = s.pb := rfl
@[simp] theorem State.setRedraw_currentDigit : (s.setRedraw).currentDigit = s.currentDigit := rfl
@[simp] theorem State.setRedraw_redrawPending : (s.setRedraw).redrawPending = true := rfl
@[simp] theorem State.setRedraw_lastTs : (s.setRedraw).lastTs = s.lastTs := rfl
@[simp] theorem State.setRedraw_prevLevel : (s.setRedraw).prevLevel = s.prevLevel := rfl
@[simp] theorem State.setRedraw_mapResult : (s.setRedraw).mapResult = s.mapResult := rfl
@[simp] theorem State.setRedraw_fault : (s.setRedraw).fault = s.fault := rfl
@[simp] theorem State.setRedraw_phase : (s.setRedraw).phase = s.phase := rfl
@[simp] theorem State.setRedraw_txLog : (s.setRedraw).txLog = s.txLog := rfl
@[simp] theorem State.setRedraw_frames : (s.setRedraw).frames = s.frames := rfl
@[simp] theorem State.setRedraw_cmdPort : (s.setRedraw).cmdPort = s.cmdPort := rfl
@[simp] theorem State.setRedraw_evPort : (s.setRedraw).evPort = s.evPort := rfl
@[simp] theorem State.setRedraw_turns : (s.setRedraw).turns = s.turns := rfl
@[simp] theorem State.setRedraw_txAccepts : (s.setRedraw).txAccepts = s.txAccepts := rfl
@[simp] theorem State.setRedraw_holdReport : (s.setRedraw).holdReport = s.holdReport := rfl

/-! ### clearRedraw -/

@[simp] theorem State.clearRedraw_params : (s.clearRedraw).params = s.params := rfl
@[simp] theorem State.clearRedraw_pb : (s.clearRedraw).pb = s.pb := rfl
@[simp] theorem State.clearRedraw_currentDigit : (s.clearRedraw).currentDigit = s.currentDigit := rfl
@[simp] theorem State.clearRedraw_redrawPending : (s.clearRedraw).redrawPending = false := rfl
@[simp] theorem State.clearRedraw_lastTs : (s.clearRedraw).lastTs = s.lastTs := rfl
@[simp] theorem State.clearRedraw_prevLevel : (s.clearRedraw).prevLevel = s.prevLevel := rfl
@[simp] theorem State.clearRedraw_mapResult : (s.clearRedraw).mapResult = s.mapResult := rfl
@[simp] theorem State.clearRedraw_fault : (s.clearRedraw).fault = s.fault := rfl
@[simp] theorem State.clearRedraw_phase : (s.clearRedraw).phase = s.phase := rfl
@[simp] theorem State.clearRedraw_txLog : (s.clearRedraw).txLog = s.txLog := rfl
@[simp] theorem State.clearRedraw_frames : (s.clearRedraw).frames = s.frames := rfl
@[simp] theorem State.clearRedraw_cmdPort : (s.clearRedraw).cmdPort = s.cmdPort := rfl
@[simp] theorem State.clearRedraw_evPort : (s.clearRedraw).evPort = s.evPort := rfl
@[simp] theorem State.clearRedraw_turns : (s.clearRedraw).turns = s.turns := rfl
@[simp] theorem State.clearRedraw_txAccepts : (s.clearRedraw).txAccepts = s.txAccepts := rfl
@[simp] theorem State.clearRedraw_holdReport : (s.clearRedraw).holdReport = s.holdReport := rfl

/-! ### setPixel -/

@[simp] theorem State.setPixel_params (index : Nat) (p : Pixel) : (s.setPixel index p).params = s.params := rfl
@[simp] theorem State.setPixel_pb (index : Nat) (p : Pixel) :
    (s.setPixel index p).pb = s.pb.setIfInBounds index p := rfl
@[simp] theorem State.setPixel_currentDigit (index : Nat) (p : Pixel) :
    (s.setPixel index p).currentDigit = s.currentDigit := rfl
@[simp] theorem State.setPixel_redrawPending (index : Nat) (p : Pixel) :
    (s.setPixel index p).redrawPending = s.redrawPending := rfl
@[simp] theorem State.setPixel_lastTs (index : Nat) (p : Pixel) : (s.setPixel index p).lastTs = s.lastTs := rfl
@[simp] theorem State.setPixel_prevLevel (index : Nat) (p : Pixel) :
    (s.setPixel index p).prevLevel = s.prevLevel := rfl
@[simp] theorem State.setPixel_mapResult (index : Nat) (p : Pixel) :
    (s.setPixel index p).mapResult = s.mapResult := rfl
@[simp] theorem State.setPixel_fault (index : Nat) (p : Pixel) : (s.setPixel index p).fault = s.fault := rfl
@[simp] theorem State.setPixel_phase (index : Nat) (p : Pixel) : (s.setPixel index p).phase = s.phase := rfl
@[simp] theorem State.setPixel_txLog (index : Nat) (p : Pixel) : (s.setPixel index p).txLog = s.txLog := rfl
@[simp] theorem State.setPixel_frames (index : Nat) (p : Pixel) : (s.setPixel index p).frames = s.frames := rfl
@[simp] theorem State.setPixel_cmdPort (index : Nat) (p : Pixel) : (s.setPixel index p).cmdPort = s.cmdPort := rfl
@[simp] theorem State.setPixel_evPort (index : Nat) (p : Pixel) : (s.setPixel index p).evPort = s.evPort := rfl
@[simp] theorem State.setPixel_turns (index : Nat) (p : Pixel) : (s.setPixel index p).turns = s.turns := rfl
@[simp] theorem State.setPixel_txAccepts (index : Nat) (p : Pixel) :
    (s.setPixel index p).txAccepts = s.txAccepts := rfl
@[simp] theorem State.setPixel_holdReport (index : Nat) (p : Pixel) :
    (s.setPixel index p).holdReport = s.holdReport := rfl

/-! ### clearPb -/

@[simp] theorem State.clearPb_params : (s.clearPb).params = s.params := rfl
@[simp] theorem State.clearPb_pb : (s.clearPb).pb = blackBuffer := rfl
@[simp] theorem State.clearPb_currentDigit : (s.clearPb).currentDigit = s.currentDigit := rfl
@[simp] theorem State.clearPb_redrawPending : (s.clearPb).redrawPending = s.redrawPending := rfl
@[simp] theorem State.clearPb_lastTs : (s.clearPb).lastTs = s.lastTs := rfl
@[simp] theorem State.clearPb_prevLevel : (s.clearPb).prevLevel = s.prevLevel := rfl
@[simp] theorem State.clearPb_mapResult : (s.clearPb).mapResult = s.mapResult := rfl
@[simp] theorem State.clearPb_fault : (s.clearPb).fault = s.fault := rfl
@[simp] theorem State.clearPb_phase : (s.clearPb).phase = s.phase := rfl
@[simp] theorem State.clearPb_txLog : (s.clearPb).txLog = s.txLog := rfl
@[simp] theorem State.clearPb_frames : (s.clearPb).frames = s.frames := rfl
@[simp] theorem State.clearPb_cmdPort : (s.clearPb).cmdPort = s.cmdPort := rfl
@[simp] theorem State.clearPb_evPort : (s.clearPb).evPort = s.evPort := rfl
@[simp] theorem State.clearPb_turns : (s.clearPb).turns = s.turns := rfl
@[simp] theorem State.clearPb_txAccepts : (s.clearPb).txAccepts = s.txAccepts := rfl
@[simp] theorem State.clearPb_holdReport : (s.clearPb).holdReport = s.holdReport := rfl

/-! ### renderDigit -/

@[simp] theorem State.renderDigit_params (d : Digit) : (s.renderDigit d).params = s.params := rfl
@[simp] theorem State.renderDigit_pb (d : Digit) :
    (s.renderDigit d).pb = paint (glyphOf s.params d) (colourOf s.params d) blackBuffer := rfl
@[simp] theorem State.renderDigit_currentDigit (d : Digit) : (s.renderDigit d).currentDigit = s.currentDigit := rfl
@[simp] theorem State.renderDigit_redrawPending (d : Digit) : (s.renderDigit d).redrawPending = s.redrawPending := rfl
@[simp] theorem State.renderDigit_lastTs (d : Digit) : (s.renderDigit d).lastTs = s.lastTs := rfl
@[simp] theorem State.renderDigit_prevLevel (d : Digit) : (s.renderDigit d).prevLevel = s.prevLevel := rfl
@[simp] theorem State.renderDigit_mapResult (d : Digit) : (s.renderDigit d).mapResult = s.mapResult := rfl
@[simp] theorem State.renderDigit_fault (d : Digit) : (s.renderDigit d).fault = s.fault := rfl
@[simp] theorem State.renderDigit_phase (d : Digit) : (s.renderDigit d).phase = s.phase := rfl
@[simp] theorem State.renderDigit_txLog (d : Digit) : (s.renderDigit d).txLog = s.txLog := rfl
@[simp] theorem State.renderDigit_frames (d : Digit) : (s.renderDigit d).frames = s.frames := rfl
@[simp] theorem State.renderDigit_cmdPort (d : Digit) : (s.renderDigit d).cmdPort = s.cmdPort := rfl
@[simp] theorem State.renderDigit_evPort (d : Digit) : (s.renderDigit d).evPort = s.evPort := rfl
@[simp] theorem State.renderDigit_turns (d : Digit) : (s.renderDigit d).turns = s.turns := rfl
@[simp] theorem State.renderDigit_txAccepts (d : Digit) : (s.renderDigit d).txAccepts = s.txAccepts := rfl
@[simp] theorem State.renderDigit_holdReport (d : Digit) : (s.renderDigit d).holdReport = s.holdReport := rfl

/-! ### startFrame -/

@[simp] theorem State.startFrame_params (c : FrameCmd) : (s.startFrame c).params = s.params := rfl
@[simp] theorem State.startFrame_pb (c : FrameCmd) : (s.startFrame c).pb = s.pb := rfl
@[simp] theorem State.startFrame_currentDigit (c : FrameCmd) : (s.startFrame c).currentDigit = s.currentDigit := rfl
@[simp] theorem State.startFrame_redrawPending (c : FrameCmd) :
    (s.startFrame c).redrawPending = s.redrawPending := rfl
@[simp] theorem State.startFrame_lastTs (c : FrameCmd) : (s.startFrame c).lastTs = s.lastTs := rfl
@[simp] theorem State.startFrame_prevLevel (c : FrameCmd) : (s.startFrame c).prevLevel = s.prevLevel := rfl
@[simp] theorem State.startFrame_mapResult (c : FrameCmd) : (s.startFrame c).mapResult = s.mapResult := rfl
@[simp] theorem State.startFrame_fault (c : FrameCmd) : (s.startFrame c).fault = s.fault := rfl
@[simp] theorem State.startFrame_phase (c : FrameCmd) : (s.startFrame c).phase = .push 0 c := rfl
@[simp] theorem State.startFrame_txLog (c : FrameCmd) : (s.startFrame c).txLog = s.txLog := rfl
@[simp] theorem State.startFrame_frames (c : FrameCmd) : (s.startFrame c).frames = s.frames := rfl
@[simp] theorem State.startFrame_cmdPort (c : FrameCmd) : (s.startFrame c).cmdPort = s.cmdPort := rfl
@[simp] theorem State.startFrame_evPort (c : FrameCmd) : (s.startFrame c).evPort = s.evPort := rfl
@[simp] theorem State.startFrame_turns (c : FrameCmd) : (s.startFrame c).turns = s.turns := rfl
@[simp] theorem State.startFrame_txAccepts (c : FrameCmd) : (s.startFrame c).txAccepts = s.txAccepts := rfl
@[simp] theorem State.startFrame_holdReport (c : FrameCmd) : (s.startFrame c).holdReport = s.holdReport := rfl

/-! ### acceptEdge -/

@[simp] theorem State.acceptEdge_params (b : Button) (now : Time) : (s.acceptEdge b now).params = s.params := rfl
@[simp] theorem State.acceptEdge_pb (b : Button) (now : Time) : (s.acceptEdge b now).pb = s.pb := rfl
@[simp] theorem State.acceptEdge_currentDigit (b : Button) (now : Time) :
    (s.acceptEdge b now).currentDigit = pressed b s.currentDigit := rfl
@[simp] theorem State.acceptEdge_redrawPending (b : Button) (now : Time) :
    (s.acceptEdge b now).redrawPending = true := rfl
@[simp] theorem State.acceptEdge_lastTs (b : Button) (now : Time) :
    (s.acceptEdge b now).lastTs = s.lastTs.set b now := rfl
@[simp] theorem State.acceptEdge_prevLevel (b : Button) (now : Time) :
    (s.acceptEdge b now).prevLevel = s.prevLevel := rfl
@[simp] theorem State.acceptEdge_mapResult (b : Button) (now : Time) :
    (s.acceptEdge b now).mapResult = s.mapResult := rfl
@[simp] theorem State.acceptEdge_fault (b : Button) (now : Time) : (s.acceptEdge b now).fault = s.fault := rfl
@[simp] theorem State.acceptEdge_phase (b : Button) (now : Time) : (s.acceptEdge b now).phase = s.phase := rfl
@[simp] theorem State.acceptEdge_txLog (b : Button) (now : Time) : (s.acceptEdge b now).txLog = s.txLog := rfl
@[simp] theorem State.acceptEdge_frames (b : Button) (now : Time) : (s.acceptEdge b now).frames = s.frames := rfl
@[simp] theorem State.acceptEdge_cmdPort (b : Button) (now : Time) : (s.acceptEdge b now).cmdPort = s.cmdPort := rfl
@[simp] theorem State.acceptEdge_evPort (b : Button) (now : Time) : (s.acceptEdge b now).evPort = s.evPort := rfl
@[simp] theorem State.acceptEdge_turns (b : Button) (now : Time) : (s.acceptEdge b now).turns = s.turns := rfl
@[simp] theorem State.acceptEdge_txAccepts (b : Button) (now : Time) :
    (s.acceptEdge b now).txAccepts = s.txAccepts := rfl
@[simp] theorem State.acceptEdge_holdReport (b : Button) (now : Time) :
    (s.acceptEdge b now).holdReport = s.holdReport := rfl

/-! ### doReset -/

@[simp] theorem State.doReset_params : (s.doReset).params = s.params := rfl
@[simp] theorem State.doReset_pb : (s.doReset).pb = (State.initial s.params).pb := rfl
@[simp] theorem State.doReset_currentDigit : (s.doReset).currentDigit = (State.initial s.params).currentDigit := rfl
@[simp] theorem State.doReset_redrawPending :
    (s.doReset).redrawPending = (State.initial s.params).redrawPending := rfl
@[simp] theorem State.doReset_lastTs : (s.doReset).lastTs = (State.initial s.params).lastTs := rfl
@[simp] theorem State.doReset_prevLevel : (s.doReset).prevLevel = (State.initial s.params).prevLevel := rfl
@[simp] theorem State.doReset_mapResult : (s.doReset).mapResult = (State.initial s.params).mapResult := rfl
@[simp] theorem State.doReset_fault : (s.doReset).fault = (State.initial s.params).fault := rfl
@[simp] theorem State.doReset_phase : (s.doReset).phase = (State.initial s.params).phase := rfl
@[simp] theorem State.doReset_txLog : (s.doReset).txLog = (State.initial s.params).txLog := rfl
@[simp] theorem State.doReset_frames : (s.doReset).frames = (State.initial s.params).frames := rfl
@[simp] theorem State.doReset_cmdPort : (s.doReset).cmdPort = s.cmdPort := rfl
@[simp] theorem State.doReset_evPort : (s.doReset).evPort = s.evPort := rfl
@[simp] theorem State.doReset_turns : (s.doReset).turns = s.turns := rfl
@[simp] theorem State.doReset_txAccepts : (s.doReset).txAccepts = s.txAccepts := rfl
@[simp] theorem State.doReset_holdReport : (s.doReset).holdReport = s.holdReport := rfl

/-! ### Per-button pairs -/

@[simp] theorem PerButton.get_inc {α : Type} (p : PerButton α) : p.get .inc = p.inc := rfl
@[simp] theorem PerButton.get_dec {α : Type} (p : PerButton α) : p.get .dec = p.dec := rfl
@[simp] theorem PerButton.set_inc {α : Type} (p : PerButton α) (v : α) : p.set .inc v = { p with inc := v } := rfl
@[simp] theorem PerButton.set_dec {α : Type} (p : PerButton α) (v : α) : p.set .dec v = { p with dec := v } := rfl

theorem PerButton.get_set {α : Type} (p : PerButton α) (b c : Button) (v : α) :
    (p.set b v).get c = if c = b then v else p.get c := by
  cases b <;> cases c <;> rfl

end Sys2Proof.Machine
end

