-- ==== Sys2Proof/Laws/Ops.lean ====
section
/-! SUPPORT. For each shared operation, what it can do, said once: later proofs cite these instead of unfolding it. -/

namespace Sys2Proof.Machine

open Sys2Proof

variable {s t : State}

/-! ### Faults -/

theorem ifRunning_of_running {k : State → Answer} (h : s.fault = none) : ifRunning s k = k s := by
  simp [ifRunning, h]

theorem ifRunning_of_fault {k : State → Answer} {f : FaultRecord} (h : s.fault = some f) :
    ifRunning s k = .fault (.stopped f.code f.word) := by
  simp [ifRunning, h]

/-- A guarded step that answers a next state ran in a state without a fault. -/
theorem ifRunning_next {k : State → Answer} (h : ifRunning s k = .next t) : s.fault = none ∧ k s = .next t := by
  cases hf : s.fault with
  | none => exact ⟨rfl, by rwa [ifRunning_of_running hf] at h⟩
  | some f => simp [ifRunning_of_fault hf] at h

theorem raiseFault_of_running {code : FaultCode} {w : CommandWord} (h : s.fault = none) :
    s.raiseFault code w = { s with fault := some { code := code, word := w } } := by
  simp [State.raiseFault, h]

/-- Raising a fault writes the record at most, and only when there is none. -/
theorem raiseFault_cases (s : State) (code : FaultCode) (w : CommandWord) :
    (s.fault = none ∧ s.raiseFault code w = { s with fault := some { code := code, word := w } }) ∨
      (s.fault ≠ none ∧ s.raiseFault code w = s) := by
  cases h : s.fault with
  | none => exact .inl ⟨rfl, raiseFault_of_running h⟩
  | some f => exact .inr ⟨by simp, by simp [State.raiseFault, h]⟩

/-! ### The frame -/

/-- A Push step sends the byte and moves on, or waits. -/
theorem pushByte_cases (s : State) (k : Fin 75) (c : FrameCmd) :
    (s.txAccepts = true ∧
        s.pushByte k c = { s with txLog := s.txLog ++ [frameByte s.pb k], phase := afterByte k c }) ∨
      (s.txAccepts = false ∧ s.pushByte k c = s) := by
  cases h : s.txAccepts
  · exact .inr ⟨rfl, by simp [State.pushByte, h]⟩
  · exact .inl ⟨rfl, by simp [State.pushByte, h]⟩

/-- A Hold step counts the frame and moves on, or waits. -/
theorem endHold_cases (s : State) (c : FrameCmd) :
    (s.holdDone = true ∧ s.endHold c = { s with frames := s.frames + 1, phase := c.afterHold }) ∨
      (s.holdDone = false ∧ s.endHold c = s) := by
  cases h : s.holdDone
  · exact .inr ⟨rfl, by simp [State.endHold, h]⟩
  · exact .inl ⟨rfl, by simp [State.endHold, h]⟩

theorem holdDone_iff (s : State) : s.holdDone = true ↔ ∃ us, s.holdReport = some us ∧ s.params.holdUs ≤ us := by
  cases h : s.holdReport <;> simp [State.holdDone, h]

/-! ### Running an instruction -/

/-- What a command can do: start, send a byte of its own frame, end its own hold, or wait. -/
theorem runCommand_next {i : Instr} {first : State → State} (h : runCommand i first s = .next t) :
    s.fault = none ∧
      ((s.phase = .idle ∧ t = first s) ∨
        (∃ k c, s.phase = .push k c ∧ c.instr = i ∧ t = s.pushByte k c) ∨
        (∃ c, s.phase = .holding c ∧ c.instr = i ∧ t = s.endHold c) ∨
        (s.phase ≠ .idle ∧ t = s)) := by
  obtain ⟨hf, h⟩ := ifRunning_next h
  refine ⟨hf, ?_⟩
  cases hp : s.phase with
  | idle =>
    rw [hp] at h
    exact .inl ⟨rfl, by simpa using h.symm⟩
  | push k c =>
    rw [hp] at h
    by_cases hc : c.instr = i
    · exact .inr (.inl ⟨k, c, rfl, hc, by simpa [hc] using h.symm⟩)
    · exact .inr (.inr (.inr ⟨by simp, by simpa [hc] using h.symm⟩))
  | holding c =>
    rw [hp] at h
    by_cases hc : c.instr = i
    · exact .inr (.inr (.inl ⟨c, rfl, hc, by simpa [hc] using h.symm⟩))
    · exact .inr (.inr (.inr ⟨by simp, by simpa [hc] using h.symm⟩))
  | serve st d =>
    rw [hp] at h
    exact .inr (.inr (.inr ⟨by simp, by simpa using h.symm⟩))

theorem runCommand_of_idle {i : Instr} {first : State → State} (hf : s.fault = none) (hp : s.phase = .idle) :
    runCommand i first s = .next (first s) := by
  simp [runCommand, ifRunning_of_running hf, hp]

theorem runCommand_of_fault {i : Instr} {first : State → State} {f : FaultRecord} (hf : s.fault = some f) :
    runCommand i first s = .fault (.stopped f.code f.word) :=
  ifRunning_of_fault hf

theorem runEvent_next {effect : State → State} (h : runEvent effect s = .next t) :
    s.fault = none ∧ t = effect s := by
  obtain ⟨hf, h⟩ := ifRunning_next h
  exact ⟨hf, by simpa using h.symm⟩

theorem runEvent_of_running {effect : State → State} (hf : s.fault = none) :
    runEvent effect s = .next (effect s) :=
  ifRunning_of_running hf

/-! ### The gate -/

/-- The gate accepts the edge, or changes nothing. -/
theorem gate_cases (s : State) (b : Button) (now : Time) :
    (s.gateOpen b now = true ∧ s.gate b now = s.acceptEdge b now) ∨
      (s.gateOpen b now = false ∧ s.gate b now = s) := by
  cases h : s.gateOpen b now
  · exact .inr ⟨rfl, by simp [State.gate, h]⟩
  · exact .inl ⟨rfl, by simp [State.gate, h]⟩

theorem gateOpen_iff (s : State) (b : Button) (now : Time) :
    s.gateOpen b now = true ↔ 200 < elapsedMs s.params.timeWidth now (s.lastTs.get b) :=
  decide_eq_true_iff

/-- The gate writes the digit, the flag and the timestamps at most. -/
theorem gate_frame (s : State) (b : Button) (now : Time) :
    s.gate b now =
      { s with
        currentDigit := (s.gate b now).currentDigit, redrawPending := (s.gate b now).redrawPending
        lastTs := (s.gate b now).lastTs } := by
  rcases gate_cases s b now with ⟨-, h⟩ | ⟨-, h⟩
  · rw [h]; rfl
  · rw [h]

theorem gateIf_frame (s : State) (e : Bool) (b : Button) (now : Time) :
    s.gateIf e b now =
      { s with
        currentDigit := (s.gateIf e b now).currentDigit, redrawPending := (s.gateIf e b now).redrawPending
        lastTs := (s.gateIf e b now).lastTs } := by
  cases e
  · rfl
  · exact gate_frame s b now

/-- A press leaves a digit in 0..9, whatever it was before. -/
theorem pressed_le (b : Button) (d : Digit) : (pressed b d).toNat ≤ 9 := by
  cases b <;> (simp only [pressed, BitVec.toNat_ofNat]; omega)

end Sys2Proof.Machine
end

