-- ==== Sys2Proof/Laws/PerInstr.lean ====
section
/-! SUPPORT. A law about every instruction as syntax: its encoding has the fixed bits that its row of
spec/opcode_table.json gives, mask and match. -/

namespace Sys2Proof.Laws

/-- The row's `mask` and `match` of an instruction's mnemonic, at the table's width. -/
def tableRow : Instr → Nat × Nat × Nat
  | .map _ _ => (32, 0xFFFFFFC0, 0x20000000)
  | .set _ _ _ _ => (32, 0xE0000000, 0x40000000)
  | .clear => (32, 0xFFFFFFFF, 0x60000000)
  | .renderD _ => (32, 0xFFFFFFF0, 0x80000000)
  | .renderCur => (32, 0xFFFFFFFF, 0x90000000)
  | .transmit => (32, 0xFFFFFFFF, 0xA0000000)
  | .service => (32, 0xFFFFFFFF, 0xC0000000)
  | .edgeInc _ => (8, 0xFF, 0x40)
  | .edgeDec _ => (8, 0xFF, 0x41)
  | .sample _ _ _ => (8, 0xFC, 0x80)

/-- A port word lies in a row: its width is the row's and its masked bits are the row's match. -/
def inRow (row : Nat × Nat × Nat) : PortWord → Prop
  | .command w => row.1 = 32 ∧ w &&& BitVec.ofNat 32 row.2.1 = BitVec.ofNat 32 row.2.2
  | .event w _ => row.1 = 8 ∧ w &&& BitVec.ofNat 8 row.2.1 = BitVec.ofNat 8 row.2.2

end Sys2Proof.Laws

namespace Sys2Proof.Laws.TableMatch

open Sys2Proof

/-- The encoding of `i` lies in the row of `i`. -/
def Statement (i : Instr) : Prop :=
  inRow (tableRow i) (encode i)

theorem map (x y : Coord) : Statement (.map x y) := by
  refine ⟨rfl, ?_⟩
  have h : ∀ x y : Coord, (0b001#3 ++ 0#23 ++ y ++ x) &&& BitVec.ofNat 32 0xFFFFFFC0 = BitVec.ofNat 32 0x20000000 := by
    decide
  exact h x y

theorem set (index : Index) (r g b : Byte) : Statement (.set index r g b) := by
  refine ⟨rfl, ?_⟩
  change (0b010#3 ++ index ++ r ++ g ++ b) &&& 0xE0000000#32 = 0x40000000#32
  refine BitVec.eq_of_getLsbD_eq fun i hi => ?_
  rw [BitVec.getLsbD_and]
  simp only [BitVec.getLsbD_append]
  interval_cases i <;> simp

theorem clear : Statement .clear := ⟨rfl, by decide⟩

theorem renderD (d : Digit) : Statement (.renderD d) := by
  refine ⟨rfl, ?_⟩
  have h : ∀ d : Digit, (0b100#3 ++ 0#1 ++ 0#24 ++ d) &&& BitVec.ofNat 32 0xFFFFFFF0 = BitVec.ofNat 32 0x80000000 := by
    decide
  exact h d

theorem renderCur : Statement .renderCur := ⟨rfl, by decide⟩

theorem transmit : Statement .transmit := ⟨rfl, by decide⟩

theorem service : Statement .service := ⟨rfl, by decide⟩

theorem edgeInc (now : Time) : Statement (.edgeInc now) :=
  ⟨rfl, show (0b01#2 ++ 0#5 ++ 0#1) &&& BitVec.ofNat 8 0xFF = BitVec.ofNat 8 0x40 by decide⟩

theorem edgeDec (now : Time) : Statement (.edgeDec now) :=
  ⟨rfl, show (0b01#2 ++ 0#5 ++ 1#1) &&& BitVec.ofNat 8 0xFF = BitVec.ofNat 8 0x41 by decide⟩

theorem sample (incLevel decLevel : Level) (now : Time) : Statement (.sample incLevel decLevel now) := by
  refine ⟨rfl, ?_⟩
  have h : ∀ p q : BitVec 1, (0b10#2 ++ 0#4 ++ p ++ q) &&& BitVec.ofNat 8 0xFC = BitVec.ofNat 8 0x80 := by
    decide
  exact h _ _

end Sys2Proof.Laws.TableMatch
end

