-- ==== Sys2Proof/Laws/Step.lean ====
section
/-! SUPPORT. What fetching and stepping can do, said once. -/

namespace Sys2Proof.Machine

open Sys2Proof

variable {s t : State}

/-- What a step that answers a next state was: an instruction that ran, or a fetch that left nothing to run. -/
theorem step_next (h : step s = .next t) :
    (∃ i u, fetch s = .run i u ∧ exec i u = .next t) ∨ fetch s = .done t := by
  unfold step at h
  cases hf : fetch s with
  | run i u => exact .inl ⟨i, u, rfl, by simpa [hf] using h⟩
  | done u => exact .inr (by simpa [hf] using h)
  | halted r => simp [hf] at h

theorem step_of_run {i : Instr} {u : State} (h : fetch s = .run i u) : step s = exec i u := by
  simp [step, h]

theorem step_of_done (h : fetch s = .done t) : step s = .next t := by
  simp [step, h]

/-- What taking a word can do: the instruction it decodes to, or the fault of an illegal word. -/
theorem runWord_cases (pw : PortWord) (s : State) :
    (∃ i, decode pw = .instr i ∧ runWord pw s = .run i s) ∨
      (∃ code w, decode pw = .illegal code ∧ runWord pw s = .done (s.raiseFault code w)) := by
  unfold runWord
  cases decode pw with
  | instr i => exact .inl ⟨i, rfl, rfl⟩
  | illegal code =>
    cases pw with
    | command w => exact .inr ⟨code, w, rfl, rfl⟩
    | event w now => exact .inr ⟨code, w.zeroExtend 32, rfl, rfl⟩

/-- What the command agent's fetch can find: the command in progress, no word, or the next word. -/
theorem fetchCommand_cases (s : State) :
    (∃ i, s.phase.current = some i ∧ fetchCommand s = .run i s) ∨
      (s.phase = .idle ∧ s.cmdPort = [] ∧ fetchCommand s = .done s) ∨
      (∃ w ws, s.phase = .idle ∧ s.cmdPort = w :: ws ∧
        fetchCommand s = runWord (.command w) { s with cmdPort := ws }) := by
  have hi : s.phase.current = none → s.phase = .idle := by
    cases s.phase <;> simp [Phase.current]
  unfold fetchCommand
  cases hc : s.phase.current with
  | some i => exact .inl ⟨i, rfl, rfl⟩
  | none =>
    cases hp : s.cmdPort with
    | nil => exact .inr (.inl ⟨hi hc, rfl, rfl⟩)
    | cons w ws => exact .inr (.inr ⟨w, ws, hi hc, rfl, rfl⟩)

/-- What the input agent's fetch can find: no event, or the next one. -/
theorem fetchEvent_cases (s : State) :
    (s.evPort = [] ∧ fetchEvent s = .done s) ∨
      (∃ e es, s.evPort = e :: es ∧
        fetchEvent s =
          runWord (.event e.word (nowOfCount s.params.timeWidth e.count)) { s with evPort := es }) := by
  unfold fetchEvent
  cases h : s.evPort with
  | nil => exact .inl ⟨rfl, rfl⟩
  | cons e es => exact .inr ⟨e, es, rfl, rfl⟩

/-- What a fetch can find: a reset, a stopped machine, no turn, or a turn of one of the agents. -/
theorem fetch_cases (s : State) :
    (∃ ts, s.turns = .reset :: ts ∧ fetch s = .done { s with turns := ts }.doReset) ∨
      (∃ f, s.fault = some f ∧ fetch s = .halted (.stopped f.code f.word)) ∨
      (s.fault = none ∧ s.turns = [] ∧ fetch s = .done s) ∨
      (∃ ts, s.fault = none ∧ s.turns = .input :: ts ∧ fetch s = fetchEvent { s with turns := ts }) ∨
      (∃ a r ts, s.fault = none ∧ s.turns = .command a r :: ts ∧
        fetch s = fetchCommand { s with turns := ts, txAccepts := a, holdReport := r }) := by
  unfold fetch
  split
  · next ts h => exact .inl ⟨ts, h, rfl⟩
  · next f hf _ => exact .inr (.inl ⟨f, hf, rfl⟩)
  · next h hf => exact .inr (.inr (.inl ⟨hf, h, rfl⟩))
  · next ts h hf => exact .inr (.inr (.inr (.inl ⟨ts, hf, h, rfl⟩)))
  · next a r ts h hf => exact .inr (.inr (.inr (.inr ⟨a, r, ts, hf, h, rfl⟩)))

/-- What SERVICE can do: S1 when Idle, S2, S4, a step of its frame, or wait. -/
theorem execService_next (h : execService s = .next t) :
    s.fault = none ∧
      ((s.phase = .idle ∧ t = serviceS1 s) ∨
        (∃ d, s.phase = .serve .s2 d ∧ t = serviceS2 s) ∨
        (∃ d, s.phase = .serve .s4 d ∧ t = serviceS4 s) ∨
        (∃ k d, s.phase = .push k (.service d) ∧ t = s.pushByte k (.service d)) ∨
        (∃ d, s.phase = .holding (.service d) ∧ t = s.endHold (.service d)) ∨
        (s.phase ≠ .idle ∧ t = s)) := by
  have own : ∀ c : FrameCmd, c.instr = .service → ∃ d, c = .service d := by
    intro c; cases c <;> simp [FrameCmd.instr]
  unfold execService at h
  split at h
  · next d hp =>
    obtain ⟨hf, h⟩ := ifRunning_next h
    exact ⟨hf, .inr (.inl ⟨d, hp, by simpa using h.symm⟩)⟩
  · next d hp =>
    obtain ⟨hf, h⟩ := ifRunning_next h
    exact ⟨hf, .inr (.inr (.inl ⟨d, hp, by simpa using h.symm⟩))⟩
  all_goals
    obtain ⟨hf, h⟩ := runCommand_next h
    refine ⟨hf, ?_⟩
    rcases h with ⟨hp, ht⟩ | ⟨k, c, hp, hc, ht⟩ | ⟨c, hp, hc, ht⟩ | ⟨hp, ht⟩
    · exact .inl ⟨hp, ht⟩
    · obtain ⟨d, rfl⟩ := own c hc
      exact .inr (.inr (.inr (.inl ⟨k, d, hp, ht⟩)))
    · obtain ⟨d, rfl⟩ := own c hc
      exact .inr (.inr (.inr (.inr (.inl ⟨d, hp, ht⟩))))
    · exact .inr (.inr (.inr (.inr (.inr ⟨hp, ht⟩))))

end Sys2Proof.Machine
end

