-- ==== Sys2Proof/Laws/Run.lean ====
section
/-! SUPPORT. A frame as a run of steps, said once: later proofs about whole commands cite `runSteps_frame` instead of
going through its steps. -/

namespace Sys2Proof.Machine

open Sys2Proof

variable {s t : State}

theorem runSteps_succ (n : Nat) (h : step s = .next t) : runSteps (n + 1) s = runSteps n t := by
  simp only [runSteps, h]

/-- A command at a byte of its own frame runs the Push step. -/
theorem exec_push (c : FrameCmd) (k : Fin 75) (hf : s.fault = none) (hp : s.phase = .push k c) :
    exec c.instr s = .next (s.pushByte k c) := by
  cases c <;>
    simp [FrameCmd.instr, exec, execTransmit, execRenderD, execRenderCur, execService, runCommand, ifRunning, hf, hp]

/-- A command in its own hold runs the Hold step. -/
theorem exec_hold (c : FrameCmd) (hf : s.fault = none) (hp : s.phase = .holding c) :
    exec c.instr s = .next (s.endHold c) := by
  cases c <;>
    simp [FrameCmd.instr, exec, execTransmit, execRenderD, execRenderCur, execService, runCommand, ifRunning, hf, hp]

theorem step_push (c : FrameCmd) (k : Fin 75) (r : Option Nat) (ts : List Turn) (hf : s.fault = none)
    (hp : s.phase = .push k c) (ht : s.turns = .command true r :: ts) :
    step s = .next
      { s with
        turns := ts, txAccepts := true, holdReport := r, txLog := s.txLog ++ [frameByte s.pb k]
        phase := afterByte k c } := by
  have h : step s = exec c.instr { s with turns := ts, txAccepts := true, holdReport := r } := by
    simp [step, fetch, ht, hf, fetchCommand, hp, Phase.current]
  rw [h, exec_push c k (by exact hf) (by exact hp)]
  simp [State.pushByte]

theorem length_frameBytes (pb : PixelBuffer) : (frameBytes pb).length = 75 := by
  simp [frameBytes]

theorem drop_frameBytes (pb : PixelBuffer) (k : Fin 75) :
    (frameBytes pb).drop k.val = frameByte pb k :: (frameBytes pb).drop (k.val + 1) := by
  rw [List.drop_eq_getElem_cons (by rw [length_frameBytes]; exact k.isLt)]
  simp [frameBytes]

/-- The frame's bytes in the order of the wire. -/
theorem frameBytes_eq (pb : PixelBuffer) : frameBytes pb = wireBytes pb := by
  obtain ⟨⟨l⟩, hl⟩ := pb
  match l, hl with
  | [_, _, _, _, _, _, _, _, _, _, _, _, _, _, _, _, _, _, _, _, _, _, _, _, _], _ => rfl

/-- What is left of a frame at byte `k`, run to its end: the bytes from `k` on, then the hold. -/
theorem runSteps_frame (c : FrameCmd) (us : Nat) (ts : List Turn) :
    ∀ (m : Nat) (k : Fin 75) (s : State), k.val + m + 1 = 75 → s.fault = none → s.phase = .push k c →
      s.turns = List.replicate (m + 1) (.command true none) ++ (.command false (some us) :: ts) →
      s.params.holdUs ≤ us → ∀ n, runSteps (m + 2 + n) s = runSteps n
        { s with
          turns := ts, txAccepts := false, holdReport := some us, txLog := s.txLog ++ (frameBytes s.pb).drop k.val
          frames := s.frames + 1, phase := c.afterHold } := by
  intro m
  induction m with
  | zero =>
    intro k s hk hf hp ht hu n
    rw [show 0 + 2 + n = (n + 1) + 1 by omega, runSteps_succ _ (step_push c k none _ hf hp (by simpa using ht))]
    apply runSteps_succ
    have ha : afterByte k c = .holding c := by
      unfold afterByte
      rw [dif_neg (by omega)]
    have hn : (frameBytes s.pb).drop (k.val + 1) = [] :=
      List.drop_eq_nil_of_le (by rw [length_frameBytes]; omega)
    simp only [step, fetch, hf, fetchCommand, Phase.current, ha]
    rw [exec_hold c (by rfl) (by rfl)]
    simp [State.endHold, State.holdDone, hu, drop_frameBytes, hn]
  | succ m ih =>
    intro k s hk hf hp ht hu n
    have hlt : k.val + 1 < 75 := by omega
    rw [show m + 1 + 2 + n = (m + 2 + n) + 1 by omega,
      runSteps_succ _ (step_push c k none _ hf hp (by rw [ht, List.replicate_succ]; rfl))]
    refine (ih ⟨k.val + 1, hlt⟩ _ (by simp only; omega) (by exact hf) (by simp only [afterByte, hlt, dif_pos]) rfl
      (by exact hu) n).trans ?_
    simp [drop_frameBytes]

end Sys2Proof.Machine
end

