-- ==== Sys2Proof/Tests/Slice0.lean ====
section
/-! SUPPORT. Tests, with their expected results from spec/95_test_vectors.md and the encoding tables of
spec/30_encoding.md, and a witness for the hypotheses of every obligation that has some. -/

namespace Sys2Proof.Tests

open Sys2Proof Sys2Proof.Machine

/-! ### Example machine (95_test_vectors.md §0: TIME_WIDTH 32, EDGE_INIT IDLE_HIGH, EX glyphs 0 and 1) -/

/-- The example parameters, not the hardware's. -/
def exParams : Params where
  timeWidth := 32
  edgeInit := .idleHigh
  holdUs := 100
  glyphs := ((Vector.replicate 10 0#25).set 0 0xEDD76E#25).set 1 0xE210C4#25
  colours := ((Vector.replicate 10 0#24).set 0 0xFF0000#24).set 1 0x00FF00#24

/-- The example machine after reset. -/
def ex : State := State.initial exParams

/-- A field of the state a step answers. -/
def after {α : Type} (f : State → α) : Answer → Option α
  | .next t => some (f t)
  | .fault _ => none
  | .refused _ => none

/-- One step on a command word. -/
def command (w : CommandWord) (s : State) : Answer := step (s.present (.command w))

/-- One step on an event word. -/
def event (w : EventWord) (now : Time) (s : State) : Answer := step (s.present (.event w now))

/-- A buffer with one colour at some indices and black elsewhere. -/
def lit (c : Pixel) (is : List Nat) : PixelBuffer :=
  is.foldl (fun pb i => pb.setIfInBounds i c) (Vector.replicate 25 0#24)

/-! ### Well-formedness refuses each ill-formed operand -/

theorem test_wf_map_x : wellFormed 32 (.map 5 0) = false := by decide

theorem test_wf_map_y : wellFormed 32 (.map 0 5) = false := by decide

theorem test_wf_set : wellFormed 32 (.set 25 0 0 0) = false := by decide

theorem test_wf_renderD : wellFormed 32 (.renderD 10) = false := by decide

theorem test_wf_edgeInc : wellFormed 16 (.edgeInc 65536) = false := by decide

theorem test_wf_edgeDec : wellFormed 16 (.edgeDec 65536) = false := by decide

theorem test_wf_sample : wellFormed 16 (.sample .high .high 65536) = false := by decide

/-- At the edge of every range: legal. -/
theorem test_wf_legal :
    wellFormed 16 (.map 4 4) && wellFormed 16 (.set 24 255 255 255) && wellFormed 16 (.renderD 9) &&
      wellFormed 16 (.edgeInc 65535) && wellFormed 16 (.edgeDec 65535) && wellFormed 16 (.sample .low .low 65535) = true := by
  decide

/-- R87: 25 of the 64 words that decode as MAP are legal. -/
theorem test_wf_map_count :
    ((List.range 64).countP fun k => legalWord 16 (.command (0x20000000#32 ||| BitVec.ofNat 32 k))) = 25 := by decide

/-- R87: 10 of the 16 RENDER d words, 2 words of KIND 01 and 4 of KIND 10 are legal. -/
theorem test_wf_other_counts :
    ((List.range 16).countP fun k => legalWord 16 (.command (0x80000000#32 ||| BitVec.ofNat 32 k))) = 10 ∧
    ((List.range 64).countP fun k => legalWord 16 (.event (0x40#8 ||| BitVec.ofNat 8 k) 0)) = 2 ∧
    ((List.range 64).countP fun k => legalWord 16 (.event (0x80#8 ||| BitVec.ofNat 8 k) 0)) = 4 := by decide

/-! ### Decoding: each constructor by a word written out from the spec -/

/-- R73: OP 001, 23 zeros, y = 3, x = 2. -/
theorem test_decode_map :
    decode (.command 0b001_00000000000000000000000_011_010#32) = .instr (.map 2 3) := by decide

/-- R74: OP 010, index = 20, R = 1, G = 0xAB, B = 0x80. -/
theorem test_decode_set :
    decode (.command 0b010_10100_00000001_10101011_10000000#32) = .instr (.set 20 1 0xAB 0x80) := by decide

/-- R72: OP 011, 29 zeros. -/
theorem test_decode_clear : decode (.command 0b011_00000000000000000000000000000#32) = .instr .clear := by decide

/-- R75: OP 100, src 0, 24 zeros, digit 6. -/
theorem test_decode_renderD :
    decode (.command 0b100_0_000000000000000000000000_0110#32) = .instr (.renderD 6) := by decide

/-- R75: OP 100, src 1, 28 zeros. -/
theorem test_decode_renderCur :
    decode (.command 0b100_1_000000000000000000000000_0000#32) = .instr .renderCur := by decide

/-- R72: OP 101, 29 zeros. -/
theorem test_decode_transmit : decode (.command 0b101_00000000000000000000000000000#32) = .instr .transmit := by decide

/-- R72: OP 110, 29 zeros. -/
theorem test_decode_service : decode (.command 0b110_00000000000000000000000000000#32) = .instr .service := by decide

/-- R80: KIND 01, 5 zeros, button 0. -/
theorem test_decode_edgeInc : decode (.event 0b01_00000_0#8 9) = .instr (.edgeInc 9) := by decide

/-- R80: KIND 01, 5 zeros, button 1. -/
theorem test_decode_edgeDec : decode (.event 0b01_00000_1#8 9) = .instr (.edgeDec 9) := by decide

/-- R81: KIND 10, 4 zeros, dec_level 0, inc_level 1. -/
theorem test_decode_sample : decode (.event 0b10_0000_0_1#8 9) = .instr (.sample .high .low 9) := by decide

/-- 95 §2.8: words of no operation. -/
theorem test_decode_no_operation :
    ([0x00000000#32, 0xE0000000#32, 0xFFFFFFFF#32, 0x1FFFFFFF#32].all fun w =>
      decide (decode (.command w) = .illegal .illegalCommand)) = true := by decide

/-- The fault rows of 95 §2.1 to §2.8: words with a reserved bit set. -/
theorem test_decode_reserved_bits :
    ([0x20000040#32, 0x20000045#32, 0x60000001#32, 0xA0000100#32, 0x90000001#32, 0x80000010#32, 0x98000000#32].all fun w =>
      decide (decode (.command w) = .illegal .illegalCommand)) = true := by decide

/-- 95 §2.5 and §2.6: words that no event has. -/
theorem test_decode_illegal_events :
    ∀ w ∈ [0x42#8, 0x00#8, 0xC1#8, 0x84#8], decode (.event w 5) = .illegal .illegalEvent := by decide

/-- The opcode table's 8-bit rows carry `now` above bit 7 (log 10). -/
theorem test_decode_table_word :
    decodeTableWord 32 0x20000024 = some (.map 4 4) ∧ decodeTableWord 8 0x41 = some (.edgeDec 0) ∧
      decodeTableWord 8 0x742 = none ∧ decodeTableWord 16 0 = none := by decide

/-! ### One step of each instruction (95 §2) -/

/-- 95 §2.1: MAP 4, 1. -/
theorem test_map : after State.resultPort (command 0x2000000C#32 ex) = some (some 19) := by decide

/-- 95 §2.1: MAP 7, 7. -/
theorem test_map_range : after State.faultPort (command 0x2000003F#32 ex) = some (some (3, 0x2000003F#32)) := by decide

/-- 95 §2.2: SET 3, 0xAB, 0xCD, 0xEF. -/
theorem test_set :
    after (fun t => (t.pb[2], t.pb[3], t.pb[4])) (command 0x43ABCDEF#32 ex) = some (0#24, 0xABCDEF#24, 0#24) := by decide

/-- 95 §2.2: index 31. -/
theorem test_set_range :
    after (fun t => (t.faultPort, t.pb)) (command 0x5FFFFFFF#32 ex) = some (some (3, 0x5FFFFFFF#32), ex.pb) := by decide

/-- 95 §2.2: CLEAR with PB[7] = 0x010203. -/
theorem test_clear : after State.pb (command 0x60000000#32 { ex with pb := lit 0x010203#24 [7] }) = some (lit 0 []) := by
  decide

/-- 95 §2.4: RENDER 1 over a white buffer leaves EX digit 1, unlit cells black. -/
theorem test_renderD :
    after State.pb (command 0x80000001#32 { ex with pb := Vector.replicate 25 0xFFFFFF#24 }) =
      some (lit 0x00FF00#24 [1, 2, 3, 7, 12, 16, 17, 22]) := by decide

/-- 95 §2.4: RENDER 10. -/
theorem test_renderD_range :
    after (fun t => (t.faultPort, t.phase)) (command 0x8000000A#32 ex) = some (some (3, 0x8000000A#32), .idle) := by decide

/-- 95 §2.4 and §0: RENDER cur of EX digit 0, redraw_pending unchanged. -/
theorem test_renderCur :
    after (fun t => (t.pb, t.redrawPending)) (command 0x90000000#32 { ex with redrawPending := true }) =
      some (lit 0xFF0000#24 [1, 2, 3, 5, 6, 8, 9, 10, 12, 14, 15, 16, 18, 19, 21, 22, 23], true) := by decide

/-- 95 §2.3: PB[0] = 0x112233 goes out as 22 11 33; here its second byte. -/
theorem test_transmit_byte :
    after (fun t => (t.txLog, t.phase))
        (exec .transmit { ex with pb := lit 0x112233#24 [0], phase := .push 1 .transmit, txAccepts := true }) =
      some ([0x11#8], .push 2 .transmit) := by decide

/-- 95 §2.3: a transmitter that does not accept. -/
theorem test_transmit_waits :
    after (fun t => (t.txLog, t.phase, t.bytePort)) (exec .transmit { ex with phase := .push 0 .transmit }) =
      some ([], .push 0 .transmit, some 0#8) := by decide

/-- 95 §2.7: nothing pending. -/
theorem test_service_idle :
    after (fun t => (t.phase, t.pb, t.frames)) (command 0xC0000000#32 { ex with pb := lit 5 [3] }) =
      some (.idle, lit 5 [3], 0) := by decide

/-- 95 §2.7: an edge accepted between S1 and S2 is shown: S2 reads digit 1. -/
theorem test_service_s2 :
    after State.pb (exec .service { ex with currentDigit := 1, redrawPending := true, phase := .serve .s2 none }) =
      some (lit 0x00FF00#24 [1, 2, 3, 7, 12, 16, 17, 22]) := by decide

/-- 95 §2.5: the difference 320 across the wrap. -/
theorem test_edgeInc_wrap :
    after (fun t => (t.currentDigit, t.lastTs.inc))
        (event 0x40#8 0x40 { ex with currentDigit := 4, lastTs := { inc := 0xFFFFFF00, dec := 0 } }) =
      some (5#4, 0x40) := by decide

/-- 95 §2.5: 200 ms is not above 200. -/
theorem test_edgeInc_discarded :
    after (fun t => (t.currentDigit, t.redrawPending, t.lastTs.inc)) (event 0x40#8 200 ex) = some (0#4, false, 0) := by
  decide

/-- 95 §2.5: digit 0 goes down to 9. -/
theorem test_edgeDec_wraps :
    after (fun t => (t.currentDigit, t.redrawPending, t.lastTs)) (event 0x41#8 500 ex) =
      some (9#4, true, { inc := 0, dec := 500 }) := by decide

/-- 95 §2.5: the increment window does not apply to the decrement button. -/
theorem test_edgeDec_own_window :
    after State.currentDigit (event 0x41#8 1050 { ex with currentDigit := 5, lastTs := { inc := 1000, dec := 0 } }) =
      some 4#4 := by decide

/-- 95 §2.6: both lines fall at 1000. -/
theorem test_sample_both :
    after (fun t => (t.currentDigit, t.redrawPending, t.lastTs)) (event 0x80#8 1000 { ex with currentDigit := 5 }) =
      some (5#4, true, { inc := 1000, dec := 1000 }) := by decide

/-- 95 §2.6: the first sample of a FIRST_SAMPLE core detects no edge. -/
theorem test_sample_first :
    after (fun t => (t.currentDigit, t.prevLevel))
        (event 0x82#8 1000 { ex with currentDigit := 5, prevLevel := { inc := none, dec := none } }) =
      some (5#4, { inc := some .low, dec := some .high }) := by decide

/-- 95 §2.5: an event fault records the word, widened. -/
theorem test_event_fault : after State.faultPort (event 0xC1#8 5 ex) = some (some (2, 0x000000C1#32)) := by decide

/-- The machine's own reset state runs the word it is given: MAP 0, 0 (95 §2.1). -/
theorem test_reset_runs :
    ∃ t, step (State.reset.withFetchWord 32 0x20000000) = .next t ∧ t.mapResult = some 24 :=
  ⟨_, rfl, rfl⟩

/-! ### The assembler (R84, R85) -/

theorem test_asm_map :
    (readLine ['M', 'A', 'P', ' ', '4', ',', ' ', '0', 'x', '1', ' ', ';', 'c']) = some (some (.map 4 1)) := by decide

theorem test_asm_sample :
    readLine ['S', 'A', 'M', 'P', 'L', 'E', ' ', '0', ',', '1', ' ', '@', ' ', '1', '0', '0', '0'] =
      some (some (.sample 0 1 1000)) ∧
    assemble 32 (.sample 0 1 1000) = some [.event 0x82#8 1000] := by decide

/-- R84: the two EDGE lines. -/
theorem test_asm_edge :
    readLine ['E', 'D', 'G', 'E', ' ', 'i', 'n', 'c', ' ', '@', ' ', '7'] = some (some (.edge .inc 7)) ∧
    assemble 32 (.edge .inc 7) = some [.event 0x40#8 7] ∧ assemble 32 (.edge .dec 7) = some [.event 0x41#8 7] := by decide

theorem test_asm_tap :
    readLine ['T', 'A', 'P', ' ', 'd', 'e', 'c', ' ', '@', ' ', '5', ',', '6'] = some (some (.tap .dec 5 6)) ∧
    assemble 32 (.tap .dec 5 6) = some [.event 0x81#8 5, .event 0x83#8 6] := by decide

/-- 95 P3: PSET 4, 0, 0, 255, 0. -/
theorem test_asm_pset : assemble 32 (.pset 4 0 0 255 0) = some [.command 0x5400FF00#32] := by decide

theorem test_asm_refuses :
    assemble 32 (.map 8 0) = none ∧ assemble 32 (.map 5 0) = some [.command 0x20000005#32] ∧
      assemble 32 (.pset 5 0 0 0 0) = none ∧ assemble 32 (.sample 2 0 0) = none := by decide

/-! ### Witnesses: for each obligation with hypotheses, values that meet them, at the boundary where there is one -/

/-- The example machine, the command agent's turn, with a word presented. -/
def exCommand (w : CommandWord) (s : State) : State :=
  { s with turns := [.command true none], cmdPort := [w] }

/-- The example machine, the input agent's turn, with an event presented. -/
def exEvent (w : EventWord) (now : Time) (s : State) : State :=
  { s with turns := [.input], evPort := [{ word := w, count := now }] }

/-- The example machine on byte `k` of a frame. -/
def exPush (k : Fin 75) (c : FrameCmd) : State :=
  { ex with phase := .push k c }

theorem ex_ready : ex.Ready := ⟨rfl, rfl⟩

theorem exParams_legal : exParams.Legal := ⟨by decide, by decide, by decide, by decide⟩

/-- A finished step of the example machine. -/
theorem answers (s : State) (h : (after (fun _ => ()) (step s)).isSome = true) : ∃ t, step s = .next t := by
  cases e : step s with
  | next t => exact ⟨t, rfl⟩
  | fault f => simp [e, after] at h
  | refused r => simp [e, after] at h

theorem test_witness_EncodeOfDecode : decode (.command 0x2000003F#32) = .instr (.map 7 7) := by decide

/-- One word for each line of R77's list, the least bit that breaks it. -/
theorem test_witness_IllegalCommandFaults :
    (exCommand 0 ex).Ready ∧ (exCommand 0 ex).turns = [.command true none] ∧ (exCommand 0 ex).cmdPort = [0#32] ∧
      IllegalCommand 0#32 ∧ IllegalCommand 0xE0000000#32 ∧ IllegalCommand 0x60000001#32 ∧ IllegalCommand 0x20000040#32 ∧
      IllegalCommand 0x80000010#32 ∧ IllegalCommand 0x90000001#32 ∧ ¬ IllegalCommand 0x2000003F#32 := by
  refine ⟨⟨rfl, rfl⟩, rfl, rfl, ?_⟩
  simp [IllegalCommand]

/-- One word for each line of R82's list. -/
theorem test_witness_IllegalEventFaults :
    (exEvent 0 5 ex).fault = none ∧ (exEvent 0 5 ex).turns = [.input] ∧
      (exEvent 0 5 ex).evPort = [{ word := 0, count := 5 }] ∧
      IllegalEvent 0#8 ∧ IllegalEvent 0xC1#8 ∧ IllegalEvent 0x42#8 ∧ IllegalEvent 0x84#8 ∧ ¬ IllegalEvent 0x83#8 := by
  refine ⟨rfl, rfl, rfl, ?_⟩
  simp [IllegalEvent]

/-- MapResult, both branches: (4, 4) and just outside, x and y each. -/
theorem test_witness_MapResult :
    ex.Ready ∧ ((4#3).toNat ≤ 4 ∧ (4#3).toNat ≤ 4) ∧ ¬ ((5#3).toNat ≤ 4 ∧ (0#3).toNat ≤ 4) ∧
      ¬ ((0#3).toNat ≤ 4 ∧ (5#3).toNat ≤ 4) :=
  ⟨ex_ready, by decide, by decide, by decide⟩

/-- SetResult, both clauses: 24 and 25. -/
theorem test_witness_SetResult : ex.Ready ∧ (24#5).toNat ≤ 24 ∧ 24 < (25#5).toNat := ⟨ex_ready, by decide, by decide⟩

/-- ClearResult, TransmitStart and ServiceReadsFlag, the latter with the flag 0 and 1. -/
theorem test_witness_Ready :
    ex.Ready ∧ ex.redrawPending = false ∧ ({ ex with redrawPending := true } : State).Ready :=
  ⟨ex_ready, rfl, ⟨rfl, rfl⟩⟩

/-- PushSendsByte at bytes 0 and 74, accepted or not. -/
theorem test_witness_PushSendsByte :
    (exPush 0 .transmit).fault = none ∧ (exPush 0 .transmit).pb[0 / 3]? = some 0#24 ∧
      (exPush 74 (.service 3)).phase = .push 74 (.service 3) ∧ (exPush 74 (.service 3)).pb[74 / 3]? = some 0#24 ∧
      (exPush 0 .transmit).txAccepts = false ∧ ({ exPush 74 (.service 3) with txAccepts := true } : State).txAccepts = true := by
  decide

/-- HoldEndsFrame, both clauses: reports of exactly HOLD_US, of one less, and none. -/
theorem test_witness_HoldEndsFrame :
    ({ ex with phase := .holding .transmit } : State).phase = .holding .transmit ∧
      (∃ us, ({ ex with phase := .holding .transmit, holdReport := some 100 } : State).holdReport = some us ∧
        exParams.holdUs ≤ us) ∧
      (∀ us, ({ ex with holdReport := some 99 } : State).holdReport = some us → us < exParams.holdUs) ∧
      (∀ us, ex.holdReport = some us → us < exParams.holdUs) := by
  refine ⟨rfl, ⟨100, rfl, by decide⟩, ?_, ?_⟩
  · intro us h
    cases h
    decide
  · intro us h
    cases h

theorem test_witness_TransmitSendsFrame :
    ∃ s : State, s.Ready ∧ s.params.holdUs ≤ 100 ∧ s.turns = .command false none :: (frameTurns 100 ++ []) ∧
      s.cmdPort = [0xA0000000#32] :=
  ⟨{ ex with turns := .command false none :: (frameTurns 100 ++ []), cmdPort := [0xA0000000#32] }, ⟨rfl, rfl⟩, by decide,
    rfl, rfl⟩

/-- RenderDigitFirstStep, both clauses: 9 and 10. -/
theorem test_witness_RenderDigitFirstStep :
    ex.Ready ∧ ex.params.glyphs[(9#4).toNat]? = some 0#25 ∧ ex.params.colours[(9#4).toNat]? = some 0#24 ∧
      9 < (10#4).toNat :=
  ⟨ex_ready, by decide, by decide, by decide⟩

theorem test_witness_RenderCurrentFirstStep :
    ∃ s : State, s.Ready ∧ s.params.glyphs[s.currentDigit.toNat]? = some 0xE210C4#25 ∧
      s.params.colours[s.currentDigit.toNat]? = some 0x00FF00#24 :=
  ⟨{ ex with currentDigit := 1 }, ⟨rfl, rfl⟩, by decide, by decide⟩

theorem test_witness_RenderClosedForm :
    24 < 25 ∧ ex.params.glyphs[(1#4).toNat]? = some 0xE210C4#25 ∧ ex.params.colours[(1#4).toNat]? = some 0x00FF00#24 := by
  decide

theorem test_witness_GlyphZeroHasSeventeenRed : ex.Ready ∧ ex.params.Legal := ⟨ex_ready, exParams_legal⟩

theorem test_witness_RenderSendsPicture :
    ∃ s : State, s.Ready ∧ (9#4).toNat ≤ 9 ∧ s.params.holdUs ≤ 100 ∧
      s.turns = .command false none :: (frameTurns 100 ++ []) ∧ s.cmdPort = [BitVec.ofNat 32 (0x80000000 + (9#4).toNat)] :=
  ⟨{ ex with
      turns := .command false none :: (frameTurns 100 ++ [])
      cmdPort := [BitVec.ofNat 32 (0x80000000 + (9#4).toNat)] },
    ⟨rfl, rfl⟩, by decide, by decide, rfl, rfl⟩

theorem test_witness_RenderTwiceSame :
    ∃ s : State, s.Ready ∧ (0#4).toNat ≤ 9 ∧ s.params.holdUs ≤ 100 ∧ s.params.holdUs ≤ 101 ∧
      s.turns = .command true none :: (frameTurns 100 ++ .command true none :: (frameTurns 101 ++ [])) ∧
      s.cmdPort = [BitVec.ofNat 32 (0x80000000 + (0#4).toNat), BitVec.ofNat 32 (0x80000000 + (0#4).toNat)] :=
  ⟨{ ex with
      turns := .command true none :: (frameTurns 100 ++ .command true none :: (frameTurns 101 ++ []))
      cmdPort := [BitVec.ofNat 32 (0x80000000 + (0#4).toNat), BitVec.ofNat 32 (0x80000000 + (0#4).toNat)] },
    ⟨rfl, rfl⟩, by decide, by decide, by decide, rfl, rfl⟩

theorem test_witness_ServicePaintsDigit :
    ∃ s : State, s.fault = none ∧ s.phase = .serve .s2 none ∧ s.params.glyphs[s.currentDigit.toNat]? = some 0xEDD76E#25 ∧
      s.params.colours[s.currentDigit.toNat]? = some 0xFF0000#24 :=
  ⟨{ ex with phase := .serve .s2 none }, rfl, rfl, by decide, by decide⟩

theorem test_witness_ServiceClearsFlag : ∃ s : State, s.fault = none ∧ s.phase = .serve .s4 (some 3#4) :=
  ⟨{ ex with phase := .serve .s4 (some 3#4) }, rfl, rfl⟩

theorem test_witness_ServiceShowsDigit :
    ∃ s : State, s.Ready ∧ s.redrawPending = true ∧ s.params.holdUs ≤ 100 ∧
      s.turns = .command true none :: .command false none :: (frameTurns 100 ++ .command false none :: []) ∧
      s.cmdPort = [0xC0000000#32] :=
  ⟨{ ex with
      redrawPending := true
      turns := .command true none :: .command false none :: (frameTurns 100 ++ .command false none :: [])
      cmdPort := [0xC0000000#32] },
    ⟨rfl, rfl⟩, rfl, by decide, rfl, rfl⟩

/-- A SERVICE of digit 3 past its S2, in phase `p`, the digit at 9 since, and the turns to its end. -/
def exService (p : Phase) : State :=
  { ex with phase := p, currentDigit := 9, redrawPending := true, turns := restOfService 100 p }

/-- LostRedraw: EDGE inc and SAMPLE of the decrement line at the first accepted millisecond, only the one edge delivered. -/
theorem test_witness_LostRedraw :
    (exService (.push 10 (.service 3))).Delivers (.edgeInc 201) .inc 201 ∧ (exService (.push 10 (.service 3))).Accepts .inc 201 ∧
      ¬ (exService (.push 10 (.service 3))).Delivers (.edgeInc 201) .dec 201 ∧
      (exService (.holding (.service 3))).Delivers (.sample .high .low 201) .dec 201 ∧
      (exService (.holding (.service 3))).Accepts .dec 201 ∧
      ¬ (exService (.holding (.service 3))).Delivers (.sample .high .low 201) .inc 201 :=
  ⟨.inl rfl, by decide, by simp [State.Delivers, edgeOf], .inr ⟨.high, .low, rfl, by decide⟩, by decide,
    by simp [State.Delivers, edgeOf]⟩

/-- LostRedraw at each kind of phase of the window, the first and the last byte among them. -/
theorem test_witness_LostRedraw_window :
    ∀ p ∈ [Phase.push 0 (.service 3), .push 74 (.service 3), .holding (.service 3), .serve .s4 (some 3)],
      (exService p).fault = none ∧ (exService p).InServiceFrame ∧ (exService p).currentDigit.toNat ≤ 9 ∧
        (exService p).params.holdUs ≤ 100 ∧ (exService p).turns = restOfService 100 (exService p).phase ++ [] := by
  simp [exService, State.InServiceFrame, ex, State.initial, exParams]

theorem test_witness_BootShowsZero : exParams.Legal ∧ exParams.holdUs ≤ 100 := ⟨exParams_legal, by decide⟩

/-- EdgeThroughGate, both branches for both buttons: 201 ms and 200 ms. -/
theorem test_witness_EdgeThroughGate :
    ex.fault = none ∧ ex.Accepts .inc 201 ∧ ¬ ex.Accepts .inc 200 ∧ ex.Accepts .dec 201 ∧ ¬ ex.Accepts .dec 200 := by decide

/-- SampleResult with both edges accepted, and with both detected and discarded. -/
theorem test_witness_SampleResult :
    ex.fault = none ∧ (ex.Falls .inc .low ∧ ex.Accepts .inc 201) ∧ (ex.Falls .dec .low ∧ ex.Accepts .dec 201) ∧
      ¬ ex.Accepts .inc 200 ∧ ¬ ex.Falls .inc .high := by decide

theorem test_witness_GateOrderUnobservable :
    ex.fault = none ∧ ex.prevLevel = { inc := some .high, dec := some .high } ∧
    ({ ex with currentDigit := 9 } : State).currentDigit.toNat ≤ 9 ∧ ex.Accepts .inc 201 ∧ ex.Accepts .dec 201 := by decide

/-- ButtonsIndependent: the other button's window does not matter. -/
theorem test_witness_ButtonsIndependent :
    ex.fault = none ∧ ex.Accepts .inc 201 ∧ ({ ex with lastTs := ex.lastTs.set .dec 200 } : State).Accepts .inc 201 := by
  decide

/-- WindowRunsFromAccepted, its first clause, for an EDGE and for a SAMPLE. -/
theorem test_witness_WindowRunsFromAccepted_timestamp :
    after (fun t => decide (t.lastTs.get .dec = ex.lastTs.get .dec)) (exec (.edgeDec 201) ex) = some false ∧
      after (fun t => decide (t.lastTs.get .inc = ex.lastTs.get .inc)) (exec (.sample .low .high 201) ex) = some false := by
  decide

/-- WindowRunsFromAccepted, its other two clauses. -/
theorem test_witness_WindowRunsFromAccepted :
    ex.fault = none ∧ ex.params.Legal ∧ ¬ ex.Accepts .dec 200 ∧ ex.Accepts .dec 201 :=
  ⟨rfl, exParams_legal, by decide, by decide⟩

theorem test_witness_BootWindowDiscards :
    ex.fault = none ∧ ex.params.Legal ∧ 200 ≤ 200 ∧ (∀ b, ex.lastTs.get b = 0) ∧ ex.lastTs = { inc := 0, dec := 0 } :=
  ⟨rfl, exParams_legal, by decide, by intro b; cases b <;> rfl, rfl⟩

theorem test_witness_EventsIgnoreCommandState :
    isCommand (.sample .low .high 1000) = false ∧ (exPush 7 .transmit).fault = none := by decide

/-- CommandsIgnoreInputState, with the one step that writes the flag. -/
theorem test_witness_CommandsIgnoreInputState :
    isCommand .service = true ∧ ex.fault = none ∧
      after State.redrawPending (exec .service { ex with redrawPending := true, phase := .serve .s4 none }) = some false := by
  decide

/-- NamedWritersOnly: instructions that change the field each clause is about. -/
theorem test_witness_NamedWritersOnly :
    after (fun t => decide (t.pb = ex.pb)) (exec (.set 24 1 2 3) ex) = some false ∧
      after (fun t => (t.currentDigit, t.redrawPending, t.lastTs.inc)) (exec (.edgeInc 201) ex) = some (1#4, true, 201) ∧
      after State.prevLevel (exec (.sample .low .low 5) ex) = some { inc := some .low, dec := some .low } ∧
      after State.mapResult (exec (.map 4 4) ex) = some (some 0) ∧
      after State.phase (exec .transmit ex) = some (.push 0 .transmit) ∧
      after State.txLog (exec .transmit { exPush 0 .transmit with txAccepts := true }) = some [0] ∧
      after State.frames (exec .transmit { ex with phase := .holding .transmit, holdReport := some 100 }) = some 1 ∧
      after (fun t => t.fault.isSome) (exec (.renderD 15) ex) = some true := by decide

/-- RedrawFlagWriters: an accepted edge, SERVICE's S1 and S4, and a step of each that changes the flag. -/
theorem test_witness_RedrawFlagWriters :
    ex.Accepts .inc 201 ∧ ex.Ready ∧
      (∃ s : State, s.fault = none ∧ s.phase = .serve .s4 (some 0) ∧ s.redrawPending = true ∧
        after State.redrawPending (exec .service s) = some false) ∧
      after State.redrawPending (exec (.edgeInc 201) ex) = some true :=
  ⟨by decide, ex_ready, ⟨{ ex with phase := .serve .s4 (some 0), redrawPending := true }, rfl, rfl, rfl, by decide⟩, by decide⟩

theorem test_witness_OtherCommandsWait :
    isCommand .clear = true ∧ (exPush 7 (.renderCur 0)).fault = none ∧
      (exPush 7 (.renderCur 0)).phase.current = some .renderCur ∧ Instr.clear ≠ .renderCur := by decide

/-- BufferFixedDuringFrame: both kinds of frame phase, under either agent's turn. -/
theorem test_witness_BufferFixedDuringFrame :
    (∃ s t : State, (∀ ts, s.turns ≠ .reset :: ts) ∧ s.phase = .push 3 .transmit ∧ step s = .next t) ∧
    (∃ s t : State, (∀ ts, s.turns ≠ .reset :: ts) ∧ s.phase = .holding (.renderD 9) ∧ step s = .next t) := by
  constructor
  · obtain ⟨t, h⟩ := answers (exCommand 0x60000000#32 (exPush 3 .transmit)) (by decide)
    exact ⟨exCommand 0x60000000#32 (exPush 3 .transmit), t, (by simp [exCommand]), rfl, h⟩
  · obtain ⟨t, h⟩ := answers (exEvent 0x40#8 500 { ex with phase := .holding (.renderD 9) }) (by decide)
    exact ⟨exEvent 0x40#8 500 { ex with phase := .holding (.renderD 9) }, t, (by simp [exEvent]), rfl, h⟩

/-- FaultStopsBothAgents: before a fault, after one, and with a reset next. -/
theorem test_witness_FaultStopsBothAgents :
    ex.fault = none ∧ (∀ ts, ex.turns ≠ .reset :: ts) ∧
      ∃ s : State, s.fault = some { code := .illegalEvent, word := 0x42#32 } ∧ s.turns = [.reset] := by
  refine ⟨rfl, ?_, ⟨{ ex with fault := some { code := .illegalEvent, word := 0x42#32 }, turns := [.reset] }, rfl, rfl⟩⟩
  intro ts h
  cases h

/-- FaultsArePrecise: an out-of-range SET executed, and an illegal event taken in the middle of a frame. -/
theorem test_witness_FaultsArePrecise :
    ex.fault = none ∧ after State.fault (exec (.set 25 0 0 0) ex) = some (some { code := .operandRange, word := 0x59000000#32 }) ∧
      after State.fault (step (exEvent 0x42#8 0 (exPush 7 .transmit))) =
        some (some { code := .illegalEvent, word := 0x42#32 }) := by decide

theorem test_witness_StepRunsCommandWord :
    (exCommand 0x20000024#32 ex).Ready ∧ (exCommand 0x20000024#32 ex).turns = [.command true none] ∧
      (exCommand 0x20000024#32 ex).cmdPort = [0x20000024#32] ∧ decode (.command 0x20000024#32) = .instr (.map 4 4) :=
  ⟨⟨rfl, rfl⟩, rfl, rfl, by decide⟩

theorem test_witness_StepContinuesCommand :
    (exCommand 0 (exPush 7 (.service 3))).fault = none ∧
      (exCommand 0 (exPush 7 (.service 3))).turns = [.command true none] ∧
      (exCommand 0 (exPush 7 (.service 3))).phase.current = some .service := by decide

/-- StepRunsEventWord, at a count above 2^TIME_WIDTH. -/
theorem test_witness_StepRunsEventWord :
    (exEvent 0x40#8 (2 ^ 32 + 7) ex).fault = none ∧ (exEvent 0x40#8 (2 ^ 32 + 7) ex).turns = [.input] ∧
      (exEvent 0x40#8 (2 ^ 32 + 7) ex).evPort = [{ word := 0x40#8, count := 2 ^ 32 + 7 }] ∧
      decode (.event 0x40#8 ((2 ^ 32 + 7) % 2 ^ 32)) = .instr (.edgeInc 7) := by decide

/-- StepWaitsForInput, its three clauses. -/
theorem test_witness_StepWaitsForInput :
    (ex.fault = none ∧ ex.turns = [] ∧ ex.evPort = [] ∧ ex.cmdPort = []) ∧
      ({ ex with turns := [.input] } : State).turns = [.input] ∧
      ({ ex with turns := [.command true none] } : State).turns = [.command true none] ∧ ex.Ready :=
  ⟨by decide, rfl, rfl, ex_ready⟩

theorem test_witness_InputAgentNeverBlocked :
    (exEvent 0x83#8 5 (exPush 7 .transmit)).fault = none ∧ (exEvent 0x83#8 5 (exPush 7 .transmit)).turns = [.input] ∧
      (exEvent 0x83#8 5 (exPush 7 .transmit)).evPort = [{ word := 0x83#8, count := 5 }] := by decide

theorem test_witness_PresentedWordRunsNext :
    0xFFFFFFFF < 2 ^ 32 ∧ 0x5FFFFFFF < 2 ^ 32 ∧ decodeTableWord 32 0x5FFFFFFF = some (.set 31 255 255 255) ∧ 0x83 < 2 ^ 8 ∧
      decodeTableWord 8 0x83 = some (.sample .high .high 0) := by decide

theorem test_witness_ResetSetsEveryField : ({ exPush 7 .transmit with turns := [.reset] } : State).turns = [.reset] := rfl

/-- StepKeepsParams: a reset is a step too. -/
theorem test_witness_StepKeepsParams : ∃ t, step { exPush 7 .transmit with turns := [.reset] } = .next t :=
  answers _ (by decide)

/-- StepKeepsInRange at the upper ends of the ranges: digit 9, result 24. -/
theorem test_witness_StepKeepsInRange :
    ∃ s t : State, s.InRange ∧ s.currentDigit = 9#4 ∧ s.mapResult = some 24#5 ∧ step s = .next t := by
  obtain ⟨t, h⟩ := answers (exEvent 0x40#8 201 { ex with currentDigit := 9, mapResult := some 24 }) (by decide)
  refine ⟨_, t, ⟨by decide, ?_, ?_, ?_⟩, rfl, rfl, h⟩
  · intro i h
    cases h
    decide
  · intro d h
    cases h
  · intro b
    cases b <;> decide

/-- StepKeepsOnWire after two bytes of a frame, the third about to go. -/
theorem test_witness_StepKeepsOnWire :
    ∃ s t : State, s.OnWire ∧ s.phase = .push 2 .transmit ∧ step s = .next t := by
  obtain ⟨t, h⟩ := answers (exCommand 0 { exPush 2 .transmit with txLog := [0, 0] }) (by decide)
  exact ⟨_, t, ⟨by decide, by decide⟩, rfl, h⟩

/-- StepKeepsShowsItsDigit in the middle of a RENDER cur that read 1, the digit at 2 since. -/
theorem test_witness_StepKeepsShowsItsDigit_current :
    ∃ s t : State, s.ShowsItsDigit ∧ s.frameDigit = some 1 ∧ s.currentDigit = 2 ∧ step s = .next t := by
  obtain ⟨t, h⟩ :=
    answers (exCommand 0 { exPush 2 (.renderCur 1) with pb := picture exParams 1, currentDigit := 2 }) (by decide)
  refine ⟨_, t, ?_, rfl, rfl, h⟩
  intro d hd
  cases hd
  rfl

/-- StepKeepsShowsItsDigit in the middle of RENDER 1's frame. -/
theorem test_witness_StepKeepsShowsItsDigit :
    ∃ s t : State, s.ShowsItsDigit ∧ s.frameDigit = some 1 ∧ step s = .next t := by
  obtain ⟨t, h⟩ := answers (exCommand 0 { exPush 2 (.renderD 1) with pb := picture exParams 1 }) (by decide)
  refine ⟨_, t, ?_, rfl, h⟩
  intro d hd
  cases hd
  rfl

/-- StepKeepsUnsetOnlyFirst on a FIRST_SAMPLE core, both levels unset, at its first SAMPLE. -/
theorem test_witness_StepKeepsUnsetOnlyFirst :
    ∃ s t : State, s.UnsetOnlyFirst ∧ s.prevLevel.inc = none ∧ step s = .next t := by
  obtain ⟨t, h⟩ := answers (exEvent 0x80#8 1000 (State.initial { exParams with edgeInit := .firstSample })) (by decide)
  refine ⟨_, t, ⟨?_, by decide⟩, rfl, h⟩
  intro he
  cases he

/-- StepKeepsUnsetOnlyFirst, its other clauses: a set level under a step that is no reset, a SAMPLE, and an EDGE. -/
theorem test_witness_StepKeepsUnsetOnlyFirst_set :
    (exEvent 0x40#8 1000 ex).prevLevel.get .inc ≠ none ∧ (∃ t, step (exEvent 0x40#8 1000 ex) = .next t) ∧
      (∃ t, exec (.sample .low .low 5) ex = .next t) ∧ (∃ t, exec (.edgeInc 5) ex = .next t) :=
  ⟨by decide, answers _ (by decide), ⟨_, rfl⟩, ⟨_, rfl⟩⟩

theorem test_witness_StepKeepsUnsetOnlyFirst_turn : ∀ ts, (exEvent 0x40#8 1000 ex).turns ≠ .reset :: ts := by
  simp [exEvent]

/-- StepKeepsContracts with the largest legal operands presented. -/
theorem test_witness_StepKeepsContracts :
    ({ exCommand 0x20000024#32 ex with evPort := [{ word := 0x83#8, count := 2 ^ 40 }] } : State).KeepsContracts :=
  ⟨rfl, List.all_eq_true.mp (by decide), List.all_eq_true.mp (by decide)⟩

/-- InvariantsHoldAtStart: legal words presented. -/
theorem test_witness_InvariantsHoldAtStart :
    (∀ w ∈ canonicalProgram 2, legalWord 32 (.command w) = true) ∧
      (∀ e ∈ [({ word := 0x40#8, count := 1000 } : PortEvent)],
        legalWord 32 (.event e.word (nowOfCount 32 e.count)) = true) :=
  ⟨List.all_eq_true.mp (by decide), List.all_eq_true.mp (by decide)⟩

/-- PseudoInstructions' last clause. -/
theorem test_witness_PseudoInstructions :
    assemble 32 (.sample 0 1 5) = some [.event 0x82#8 5] ∧ assemble 32 (.sample 1 1 6) = some [.event 0x83#8 6] := by decide

end Sys2Proof.Tests
end

/-! ## The redraw flag (spec/10_state.md R24)

What each operation does to redraw_pending: the steps of the commands leave it alone but for SERVICE's S4, and an event
raises it exactly when the gate accepts an edge that the event delivers. -/

namespace Sys2Proof.Machine

open Sys2Proof

variable {s t : State}

/-! ### The command agent's steps -/

@[simp] theorem State.raiseFault_redrawPending (s : State) (code : FaultCode) (w : CommandWord) :
    (s.raiseFault code w).redrawPending = s.redrawPending := by
  obtain ⟨-, h⟩ | ⟨-, h⟩ := raiseFault_cases s code w <;> rw [h]

@[simp] theorem State.pushByte_redrawPending (s : State) (k : Fin 75) (c : FrameCmd) :
    (s.pushByte k c).redrawPending = s.redrawPending := by
  obtain ⟨-, h⟩ | ⟨-, h⟩ := pushByte_cases s k c <;> rw [h]

@[simp] theorem State.endHold_redrawPending (s : State) (c : FrameCmd) :
    (s.endHold c).redrawPending = s.redrawPending := by
  obtain ⟨-, h⟩ | ⟨-, h⟩ := endHold_cases s c <;> rw [h]

@[simp] theorem mapStep_redrawPending (x y : Coord) (s : State) :
    (mapStep x y s).redrawPending = s.redrawPending := by
  unfold mapStep
  split <;> simp

@[simp] theorem setStep_redrawPending (index : Index) (r g b : Byte) (s : State) :
    (setStep index r g b s).redrawPending = s.redrawPending := by
  unfold setStep
  split <;> simp

@[simp] theorem renderStep_redrawPending (d : Digit) (s : State) :
    (renderStep d s).redrawPending = s.redrawPending := by
  unfold renderStep
  split <;> simp

@[simp] theorem serviceS1_redrawPending (s : State) : (serviceS1 s).redrawPending = s.redrawPending := by
  unfold serviceS1
  split <;> rfl

@[simp] theorem serviceS2_redrawPending (s : State) : (serviceS2 s).redrawPending = s.redrawPending := rfl

@[simp] theorem serviceS4_redrawPending (s : State) : (serviceS4 s).redrawPending = false := rfl

/-- A command whose first step leaves the flag alone leaves it alone at every step. -/
theorem runCommand_redrawPending {i : Instr} {first : State → State}
    (hfirst : (first s).redrawPending = s.redrawPending) (h : runCommand i first s = .next t) :
    t.redrawPending = s.redrawPending := by
  obtain ⟨-, ⟨-, rfl⟩ | ⟨k, c, -, -, rfl⟩ | ⟨c, -, -, rfl⟩ | ⟨-, rfl⟩⟩ := runCommand_next h
  · exact hfirst
  · exact s.pushByte_redrawPending k c
  · exact s.endHold_redrawPending c
  · rfl

/-- SERVICE leaves the flag alone at every step but S4, which clears it. -/
theorem execService_redrawPending (h : execService s = .next t) :
    t.redrawPending = s.redrawPending ∨ (t.redrawPending = false ∧ ∃ o, s.phase = .serve .s4 o) := by
  obtain ⟨-, ⟨-, rfl⟩ | ⟨o, -, rfl⟩ | ⟨o, hp, rfl⟩ | ⟨k, d, -, rfl⟩ | ⟨d, -, rfl⟩ | ⟨-, rfl⟩⟩ := execService_next h
  case inr.inr.inl => exact .inr ⟨rfl, o, hp⟩
  all_goals exact .inl (by simp)

theorem execService_of_idle (hf : s.fault = none) (hp : s.phase = .idle) :
    execService s = .next (serviceS1 s) := by
  simp [execService, hp, runCommand_of_idle hf hp]

theorem execService_of_s4 {o : Option Digit} (hf : s.fault = none) (hp : s.phase = .serve .s4 o) :
    execService s = .next (serviceS4 s) := by
  simp [execService, hp, ifRunning_of_running hf]

/-! ### The gate and the events -/

/-- The gate's condition as the model computes it is the one that R161 writes. -/
theorem gateOpen_iff_accepts (s : State) (b : Button) (now : Time) : s.gateOpen b now = true ↔ s.Accepts b now := by
  rw [gateOpen_iff, elapsedMs, Int.lt_toNat]
  rfl

@[simp] theorem State.gate_redrawPending (s : State) (b : Button) (now : Time) :
    (s.gate b now).redrawPending = (s.redrawPending || s.gateOpen b now) := by
  obtain ⟨ho, h⟩ | ⟨ho, h⟩ := gate_cases s b now <;> simp [ho, h]

@[simp] theorem State.gateIf_redrawPending (s : State) (e : Bool) (b : Button) (now : Time) :
    (s.gateIf e b now).redrawPending = (s.redrawPending || (e && s.gateOpen b now)) := by
  cases e
  · exact (Bool.or_false _).symm
  · exact s.gate_redrawPending b now

/-- The gate of a button looks at that button's timestamp only, so the other button's gate does not move it (R164). -/
theorem gateOpen_gate_of_ne (s : State) {b c : Button} (hne : c ≠ b) (now now' : Time) :
    (s.gate b now).gateOpen c now' = s.gateOpen c now' := by
  obtain ⟨-, h⟩ | ⟨-, h⟩ := gate_cases s b now
  · simp [h, State.gateOpen, PerButton.get_set, hne]
  · rw [h]

theorem gateOpen_gateIf_of_ne (s : State) (e : Bool) {b c : Button} (hne : c ≠ b) (now now' : Time) :
    (s.gateIf e b now).gateOpen c now' = s.gateOpen c now' := by
  cases e
  · rfl
  · exact gateOpen_gate_of_ne s hne now now'

/-- The edge detector finds an edge exactly when the line falls (R168). -/
theorem falling_iff_falls (s : State) (b : Button) (level : Level) :
    falling (s.prevLevel.get b) level = true ↔ s.Falls b level := by
  unfold State.Falls
  obtain _ | (_ | _) := s.prevLevel.get b <;> cases level <;> decide

/-- A SAMPLE raises the flag exactly when one of its edges passes the gate, the gates being those of the state before
(R170, R172). -/
theorem sampleStep_redrawPending (x y : Level) (now : Time) (s : State) :
    (sampleStep x y now s).redrawPending =
      (s.redrawPending || (falling (s.prevLevel.get .inc) x && s.gateOpen .inc now) ||
        (falling (s.prevLevel.get .dec) y && s.gateOpen .dec now)) := by
  simp only [sampleStep, State.gateIf_redrawPending, gateOpen_gateIf_of_ne _ _ (show Button.dec ≠ .inc by decide)]
  rfl

/-- An EDGE that changes the flag sets it, by an accepted edge. -/
theorem gate_changes_redrawPending {b : Button} {now : Time}
    (hne : (s.gate b now).redrawPending ≠ s.redrawPending) :
    (s.gate b now).redrawPending = true ∧ s.Accepts b now := by
  obtain ⟨ho, h⟩ | ⟨-, h⟩ := gate_cases s b now
  · exact ⟨by rw [h]; rfl, (gateOpen_iff_accepts s b now).mp ho⟩
  · exact absurd (by rw [h]) hne

/-- A SAMPLE that changes the flag sets it, by an accepted edge of a line that falls. -/
theorem sampleStep_changes_redrawPending {x y : Level} {now : Time}
    (hne : (sampleStep x y now s).redrawPending ≠ s.redrawPending) :
    (sampleStep x y now s).redrawPending = true ∧
      ((s.Falls .inc x ∧ s.Accepts .inc now) ∨ (s.Falls .dec y ∧ s.Accepts .dec now)) := by
  have hs : s.redrawPending = false := by
    by_contra hs
    exact hne (by simp [sampleStep_redrawPending, hs])
  have ht : (sampleStep x y now s).redrawPending = true := by
    simpa [hs] using hne
  refine ⟨ht, ?_⟩
  rw [sampleStep_redrawPending, hs] at ht
  simpa only [Bool.false_or, Bool.or_eq_true, Bool.and_eq_true, falling_iff_falls, gateOpen_iff_accepts] using ht

/-! ### Every instruction -/

/-- The named writers: whatever instruction changes the flag, a gate accepted an edge it delivers, or it is SERVICE at
S4. -/
theorem exec_changes_redrawPending {i : Instr} (h : exec i s = .next t) (hne : t.redrawPending ≠ s.redrawPending) :
    (t.redrawPending = true ∧ ∃ b now, s.Delivers i b now ∧ s.Accepts b now) ∨
      (t.redrawPending = false ∧ i = .service ∧ ∃ o, s.phase = .serve .s4 o) := by
  cases i with
  | map x y => exact absurd (runCommand_redrawPending (mapStep_redrawPending x y s) h) hne
  | set index r g b => exact absurd (runCommand_redrawPending (setStep_redrawPending index r g b s) h) hne
  | clear => exact absurd (runCommand_redrawPending s.clearPb_redrawPending h) hne
  | renderD d => exact absurd (runCommand_redrawPending (renderStep_redrawPending d s) h) hne
  | renderCur =>
    simp only [exec, execRenderCur] at h
    exact absurd (runCommand_redrawPending (by simp) h) hne
  | transmit =>
    simp only [exec, execTransmit] at h
    exact absurd (runCommand_redrawPending (by simp) h) hne
  | service =>
    obtain ⟨ht, hp⟩ := (execService_redrawPending h).resolve_left hne
    exact .inr ⟨ht, rfl, hp⟩
  | edgeInc now =>
    obtain ⟨-, rfl⟩ := runEvent_next h
    obtain ⟨ht, ha⟩ := gate_changes_redrawPending hne
    exact .inl ⟨ht, .inc, now, .inl rfl, ha⟩
  | edgeDec now =>
    obtain ⟨-, rfl⟩ := runEvent_next h
    obtain ⟨ht, ha⟩ := gate_changes_redrawPending hne
    exact .inl ⟨ht, .dec, now, .inl rfl, ha⟩
  | sample x y now =>
    obtain ⟨-, rfl⟩ := runEvent_next h
    obtain ⟨ht, ⟨hf, ha⟩ | ⟨hf, ha⟩⟩ := sampleStep_changes_redrawPending hne
    · exact .inl ⟨ht, .inc, now, .inr ⟨x, y, rfl, hf⟩, ha⟩
    · exact .inl ⟨ht, .dec, now, .inr ⟨x, y, rfl, hf⟩, ha⟩

/-- Settles O35: it holds, by the effect of the gate and of SERVICE's S1 and S4, and by cases on the instruction for the
writers. -/
theorem redrawFlagWriters : Obligations.RedrawFlagWriters := by
  refine ⟨fun s b now ha => ?_, fun s hr => ?_, fun s o hf hp => ?_, fun i s t => exec_changes_redrawPending⟩
  · simp [(gateOpen_iff_accepts s b now).mpr ha]
  · exact execService_of_idle hr.noFault hr.idle
  · exact execService_of_s4 hf hp

end Sys2Proof.Machine

/-! ## The painted picture (spec/41_pixel_buffer.md R131, R132, R134)

The mapper sends the 25 cells to 25 different LEDs, so painting a glyph into a black buffer shows the glyph, and the
buffer holds one entry of the glyph's colour for each lit cell. -/

namespace Sys2Proof.Machine

open Sys2Proof

/-! ### The mapper on the cells -/

/-- The mapper is undone by its inverse on the cells of the matrix (R104). -/
theorem pinv_pidx {x y : Nat} (hx : x ≤ 4) (hy : y ≤ 4) : pinv (pidx x y) = (x, y) := by
  have h : ∀ x < 5, ∀ y < 5, pinv (pidx x y) = (x, y) := by decide
  exact h x (by omega) y (by omega)

theorem pidx_lt (x y : Nat) : pidx x y < 25 := by
  unfold pidx
  split <;> omega

/-- Two cells of the matrix have the same LED only if they are the same cell (R104). -/
theorem pidx_eq_iff {x y x' y' : Nat} (hx : x ≤ 4) (hy : y ≤ 4) (hx' : x' ≤ 4) (hy' : y' ≤ 4) :
    pidx x y = pidx x' y' ↔ (x, y) = (x', y') := by
  refine ⟨fun h => ?_, fun h => by cases h; rfl⟩
  rw [← pinv_pidx hx hy, h, pinv_pidx hx' hy']

@[simp] theorem mem_cells {x y : Nat} : (x, y) ∈ cells ↔ x ≤ 4 ∧ y ≤ 4 := by
  have hcells : cells = (List.range 5).flatMap fun y => (List.range 5).map fun x => (x, y) := rfl
  simp [hcells]
  omega

/-! ### Painting -/

/-- One cell of `Paint` writes that cell's LED, if the cell is lit, and leaves every other cell's LED alone. -/
theorem paintCell_getElem? (g : Glyph) (c : Pixel) (pb : PixelBuffer) {x y x' y' : Nat}
    (hx : x ≤ 4) (hy : y ≤ 4) (hx' : x' ≤ 4) (hy' : y' ≤ 4) :
    (paintCell g c pb (x', y'))[pidx x y]? =
      if (x, y) = (x', y') ∧ g.getLsbD (5 * y + x) then some c else pb[pidx x y]? := by
  unfold paintCell
  by_cases hcell : (x, y) = (x', y')
  · cases hcell
    cases g.getLsbD (5 * y + x) <;> simp [pidx_lt]
  · have hled : pidx x' y' ≠ pidx x y := fun h => hcell ((pidx_eq_iff hx hy hx' hy').mp h.symm)
    split <;> simp [hcell, hled]

/-- Painting a list of cells writes the LEDs of its lit cells and no other. -/
theorem foldl_paintCell_getElem? (g : Glyph) (c : Pixel) {x y : Nat} (hx : x ≤ 4) (hy : y ≤ 4) (l : List (Nat × Nat)) :
    (∀ cell ∈ l, cell ∈ cells) → ∀ pb : PixelBuffer,
      (l.foldl (paintCell g c) pb)[pidx x y]? =
        if (x, y) ∈ l ∧ g.getLsbD (5 * y + x) then some c else pb[pidx x y]? := by
  induction l with
  | nil => simp
  | cons cell l ih =>
    intro hl pb
    obtain ⟨x', y'⟩ := cell
    obtain ⟨hx', hy'⟩ := mem_cells.mp (hl _ List.mem_cons_self)
    rw [List.foldl_cons, ih (fun cell h => hl cell (List.mem_cons_of_mem _ h)), paintCell_getElem? g c pb hx hy hx' hy']
    grind

/-- Clear and paint show the glyph: the closed form of R132 over the cells. -/
theorem showsGlyph_paint (g : Glyph) (c : Pixel) : ShowsGlyph g c (paint g c blackBuffer) := by
  intro x y hx hy
  have hblack : blackBuffer[pidx x y]? = some 0#24 := by simp [blackBuffer, pidx_lt]
  rw [paint, foldl_paintCell_getElem? g c hx hy cells (fun _ h => h), hblack]
  cases g.getLsbD (5 * y + x) <;> simp [hx, hy]

/-! ### Counting the entries -/

/-- The entries of a buffer that shows a glyph are, up to their order on the strip, the cells' colours. -/
theorem ShowsGlyph.toList_perm {g : Glyph} {c : Pixel} {pb : PixelBuffer} (h : ShowsGlyph g c pb) :
    pb.toList.Perm ((List.range 25).map fun k => if g.getLsbD k then c else 0#24) := by
  have hleds : ((List.range 25).map fun k => pidx (k % 5) (k / 5)).Perm (List.range 25) := by decide
  have hcell : ∀ k ∈ List.range 25, pb[pidx (k % 5) (k / 5)]? = some (if g.getLsbD k then c else 0#24) := by
    intro k hk
    have hk := List.mem_range.mp hk
    rw [h (k % 5) (k / 5) (by omega) (by omega), Nat.div_add_mod]
  have hstrip : (List.range 25).map (fun i => pb[i]?) = pb.toList.map some := by
    apply List.ext_getElem <;> simp
  rw [← List.map_perm_map_iff (Option.some_injective _), ← hstrip, List.map_map]
  refine (hleds.map fun i => pb[i]?).symm.trans (.of_eq ?_)
  rw [List.map_map]
  exact List.map_congr_left hcell

/-- One entry of the glyph's colour for each lit cell. -/
theorem ShowsGlyph.count_colour {g : Glyph} {c : Pixel} {pb : PixelBuffer} (h : ShowsGlyph g c pb) (hc : c ≠ 0#24) :
    pb.toList.count c = litCells g := by
  rw [h.toList_perm.count_eq, List.count, List.countP_map, litCells]
  refine List.countP_congr fun k _ => ?_
  cases hk : g.getLsbD k <;> simp [hk, hc.symm]

/-- One black entry for each cell that is not lit. -/
theorem ShowsGlyph.count_black {g : Glyph} {c : Pixel} {pb : PixelBuffer} (h : ShowsGlyph g c pb) (hc : c ≠ 0#24) :
    pb.toList.count 0#24 = 25 - litCells g := by
  have hdark : pb.toList.count 0#24 = (List.range 25).countP fun k => !g.getLsbD k := by
    rw [h.toList_perm.count_eq, List.count, List.countP_map]
    refine List.countP_congr fun k _ => ?_
    cases hk : g.getLsbD k <;> simp [hk, hc]
  have hall := List.length_eq_countP_add_countP (fun k => g.getLsbD k) (l := List.range 25)
  simp only [List.length_range, Bool.not_eq_true, Bool.decide_eq_false] at hall
  rw [hdark, litCells]
  omega

/-! ### RENDER d -/

/-- The first step of RENDER of a legal digit leaves the digit's picture and begins its frame (R130). -/
theorem exec_renderD_of_ready {s : State} {d : Digit} (hs : s.Ready) (hd : d.toNat ≤ 9) :
    exec (.renderD d) s = .next { s with pb := picture s.params d, phase := .push 0 (.renderD d) } := by
  have hfirst : renderStep d s = (s.renderDigit d).startFrame (.renderD d) := by simp [renderStep, digitLegal, hd]
  have hrun : exec (.renderD d) s = .next (renderStep d s) := runCommand_of_idle hs.noFault hs.idle
  rw [hrun, hfirst]
  rfl

/-- Settles O17: it holds, since RENDER 0 leaves the picture of digit 0, and a picture holds one entry of its colour for
each lit cell. -/
theorem glyphZeroHasSeventeenRed : Obligations.GlyphZeroHasSeventeenRed := by
  intro s hs hp
  have hpicture : picture s.params 0 = paint s.params.glyphs[0] 0xFF0000#24 blackBuffer := by
    rw [← hp.colourZero]
    rfl
  have hshows : ShowsGlyph s.params.glyphs[0] 0xFF0000#24 (picture s.params 0) := by
    rw [hpicture]
    exact showsGlyph_paint _ _
  have hred : 0xFF0000#24 ≠ 0#24 := by decide
  refine ⟨picture s.params 0, exec_renderD_of_ready hs (by decide), hshows, ?_, ?_⟩
  · rw [hshows.count_colour hred, hp.glyphZero]
  · rw [hshows.count_black hred, hp.glyphZero]

end Sys2Proof.Machine

/-! ## What an event reads (spec/42_input.md R164, R174)

An EDGE looks at its own button's timestamp only, and no event looks at the command agent's state: the step of an event
commutes with putting any other values there. -/

namespace Sys2Proof.Machine

open Sys2Proof

variable {s : State}

/-! ### The gate, open and closed -/

theorem gate_of_open {b : Button} {now : Time} (h : s.gateOpen b now = true) : s.gate b now = s.acceptEdge b now :=
  if_pos h

theorem gate_of_closed {b : Button} {now : Time} (h : s.gateOpen b now = false) : s.gate b now = s :=
  if_neg (by simp [h])

/-- EDGE of a button is the gate of that button (R171). -/
theorem exec_edgeOf (b : Button) (now : Time) (hf : s.fault = none) :
    exec (edgeOf b now) s = .next (s.gate b now) := by
  cases b <;> exact runEvent_of_running hf

/-! ### The other button's timestamp (R164) -/

theorem otherButton_ne (b : Button) : otherButton b ≠ b := by
  cases b <;> decide

theorem PerButton.set_comm {α : Type} (p : PerButton α) {b c : Button} (hne : c ≠ b) (v w : α) :
    (p.set c v).set b w = (p.set b w).set c v := by
  cases b <;> cases c
  case inc.inc | dec.dec => exact absurd rfl hne
  case inc.dec | dec.inc => rfl

/-- The state with another value in the timestamp of button `c`. -/
def State.withTimestamp (s : State) (c : Button) (v : Time) : State :=
  { s with lastTs := s.lastTs.set c v }

theorem gateOpen_withTimestamp_of_ne {b c : Button} (hne : c ≠ b) (v now : Time) :
    (s.withTimestamp c v).gateOpen b now = s.gateOpen b now := by
  simp [State.withTimestamp, State.gateOpen, PerButton.get_set, hne.symm]

theorem acceptEdge_withTimestamp_of_ne {b c : Button} (hne : c ≠ b) (v now : Time) :
    (s.withTimestamp c v).acceptEdge b now = (s.acceptEdge b now).withTimestamp c v := by
  simp [State.withTimestamp, State.acceptEdge, State.setRedraw, PerButton.set_comm s.lastTs hne]

/-- The gate of a button neither reads nor moves another button's timestamp. -/
theorem gate_withTimestamp_of_ne {b c : Button} (hne : c ≠ b) (v now : Time) :
    (s.withTimestamp c v).gate b now = (s.gate b now).withTimestamp c v := by
  have hopen := gateOpen_withTimestamp_of_ne (s := s) hne v now
  obtain ⟨ho, h⟩ | ⟨ho, h⟩ := gate_cases s b now
  · rw [h, gate_of_open (hopen.trans ho), acceptEdge_withTimestamp_of_ne hne]
  · rw [h, gate_of_closed (hopen.trans ho)]

theorem gate_lastTs_get_of_ne {b c : Button} (hne : c ≠ b) (now : Time) :
    (s.gate b now).lastTs.get c = s.lastTs.get c := by
  obtain ⟨-, h⟩ | ⟨-, h⟩ := gate_cases s b now
  · simp [h, PerButton.get_set, hne]
  · rw [h]

/-- Settles O29: it holds, since the gate of a button commutes with a change of the other button's timestamp. -/
theorem buttonsIndependent : Obligations.ButtonsIndependent := by
  intro s b now v hf
  have hne := otherButton_ne b
  refine ⟨s.gate b now, exec_edgeOf b now hf, ?_, gate_lastTs_get_of_ne hne now, fun ha => ?_⟩
  · have hrun : exec (edgeOf b now) (s.withTimestamp (otherButton b) v) = _ := exec_edgeOf b now hf
    rwa [gate_withTimestamp_of_ne hne] at hrun
  · rw [gate_of_open ((gateOpen_iff_accepts s b now).mpr ha)]
    exact ⟨rfl, rfl⟩

/-! ### The command agent's state (R22, R174) -/

/-- The state with the buffer, map_result, tx_log, frames and cmd_phase of another state. -/
def State.withCommandStateOf (s u : State) : State :=
  { s with pb := u.pb, mapResult := u.mapResult, txLog := u.txLog, frames := u.frames, phase := u.phase }

theorem gate_withCommandStateOf (s u : State) (b : Button) (now : Time) :
    (s.withCommandStateOf u).gate b now = (s.gate b now).withCommandStateOf u := by
  have hopen : (s.withCommandStateOf u).gateOpen b now = s.gateOpen b now := rfl
  obtain ⟨ho, h⟩ | ⟨ho, h⟩ := gate_cases s b now
  · rw [h, gate_of_open (hopen.trans ho)]
    rfl
  · rw [h, gate_of_closed (hopen.trans ho)]

theorem gateIf_withCommandStateOf (s u : State) (e : Bool) (b : Button) (now : Time) :
    (s.withCommandStateOf u).gateIf e b now = (s.gateIf e b now).withCommandStateOf u := by
  cases e
  · rfl
  · exact gate_withCommandStateOf s u b now

theorem sampleStep_withCommandStateOf (x y : Level) (now : Time) (s u : State) :
    sampleStep x y now (s.withCommandStateOf u) = (sampleStep x y now s).withCommandStateOf u := by
  simp only [sampleStep, ← gateIf_withCommandStateOf]
  rfl

/-- An event whose effect commutes with a change of the command agent's state completes and does the same whatever that
state is. -/
theorem runEvent_ignores_commandState {effect : State → State} (hf : s.fault = none)
    (hc : ∀ u, effect (s.withCommandStateOf u) = (effect s).withCommandStateOf u) :
    ∃ t, runEvent effect s = .next t ∧
      ∀ u, runEvent effect (s.withCommandStateOf u) = .next (t.withCommandStateOf u) :=
  ⟨effect s, runEvent_of_running hf, fun u => by
    have hf' : (s.withCommandStateOf u).fault = none := hf
    rw [runEvent_of_running hf', hc]⟩

theorem exec_event_ignores_commandState {i : Instr} (hi : isCommand i = false) (hf : s.fault = none) :
    ∃ t, exec i s = .next t ∧ ∀ u, exec i (s.withCommandStateOf u) = .next (t.withCommandStateOf u) := by
  cases i with
  | edgeInc now =>
    exact runEvent_ignores_commandState (effect := (·.gate .inc now)) hf fun u => gate_withCommandStateOf s u .inc now
  | edgeDec now =>
    exact runEvent_ignores_commandState (effect := (·.gate .dec now)) hf fun u => gate_withCommandStateOf s u .dec now
  | sample x y now => exact runEvent_ignores_commandState hf (sampleStep_withCommandStateOf x y now s)
  | map | set | clear | renderD | renderCur | transmit | service => cases hi

/-- Settles O32: it holds, since the effect of each event commutes with a change of the command agent's state. -/
theorem eventsIgnoreCommandState : Obligations.EventsIgnoreCommandState := by
  intro i s hi hf
  obtain ⟨t, ht, hu⟩ := exec_event_ignores_commandState hi hf
  exact ⟨t, ht, fun q m l n p => hu { s with pb := q, mapResult := m, txLog := l, frames := n, phase := p }⟩

end Sys2Proof.Machine

/-! ## The contracts of the source (spec/60_exceptions.md R220)

Only the fault record, TIME_WIDTH and the two ports enter the contracts. No operation writes the parameters or adds to a
port, and an instruction with its operands in range takes the branch of its first step that raises no fault. -/

namespace Sys2Proof.Machine

open Sys2Proof

variable {s t : State}

/-- The contracts are a matter of the fault record, the parameters and the two ports. -/
theorem State.KeepsContracts.congr (h : s.KeepsContracts) (hfault : t.fault = s.fault) (hparams : t.params = s.params)
    (hcmd : t.cmdPort = s.cmdPort) (hev : t.evPort = s.evPort) : t.KeepsContracts where
  noFault := by rw [hfault, h.noFault]
  commands := by rw [hcmd, hparams]; exact h.commands
  events := by rw [hev, hparams]; exact h.events

/-! ### The shared operations -/

theorem State.KeepsContracts.pushByte (h : s.KeepsContracts) (k : Fin 75) (c : FrameCmd) :
    (s.pushByte k c).KeepsContracts := by
  obtain ⟨-, hs⟩ | ⟨-, hs⟩ := pushByte_cases s k c <;> rw [hs]
  · exact h.congr rfl rfl rfl rfl
  · exact h

theorem State.KeepsContracts.endHold (h : s.KeepsContracts) (c : FrameCmd) : (s.endHold c).KeepsContracts := by
  obtain ⟨-, hs⟩ | ⟨-, hs⟩ := endHold_cases s c <;> rw [hs]
  · exact h.congr rfl rfl rfl rfl
  · exact h

theorem State.KeepsContracts.gate (h : s.KeepsContracts) (b : Button) (now : Time) : (s.gate b now).KeepsContracts := by
  rw [gate_frame]
  exact h.congr rfl rfl rfl rfl

theorem State.KeepsContracts.gateIf (h : s.KeepsContracts) (e : Bool) (b : Button) (now : Time) :
    (s.gateIf e b now).KeepsContracts := by
  rw [gateIf_frame]
  exact h.congr rfl rfl rfl rfl

theorem State.KeepsContracts.renderFrame (h : s.KeepsContracts) (d : Digit) (c : FrameCmd) :
    ((s.renderDigit d).startFrame c).KeepsContracts :=
  h.congr rfl rfl rfl rfl

theorem State.KeepsContracts.doReset (h : s.KeepsContracts) : s.doReset.KeepsContracts :=
  ⟨rfl, h.commands, h.events⟩

/-! ### The first steps -/

theorem State.KeepsContracts.mapStep {x y : Coord} (h : s.KeepsContracts) (hxy : coordsLegal x y = true) :
    (mapStep x y s).KeepsContracts := by
  rw [Machine.mapStep, if_pos hxy]
  exact h.congr rfl rfl rfl rfl

theorem State.KeepsContracts.setStep {index : Index} (h : s.KeepsContracts) (hindex : indexLegal index = true)
    (r g b : Byte) : (setStep index r g b s).KeepsContracts := by
  rw [Machine.setStep, if_pos hindex]
  exact h.congr rfl rfl rfl rfl

theorem State.KeepsContracts.renderStep {d : Digit} (h : s.KeepsContracts) (hd : digitLegal d = true) :
    (renderStep d s).KeepsContracts := by
  rw [Machine.renderStep, if_pos hd]
  exact h.renderFrame d _

theorem State.KeepsContracts.serviceS1 (h : s.KeepsContracts) : (serviceS1 s).KeepsContracts := by
  unfold Machine.serviceS1
  split
  · exact h.congr rfl rfl rfl rfl
  · exact h

theorem State.KeepsContracts.sampleStep (h : s.KeepsContracts) (x y : Level) (now : Time) :
    (sampleStep x y now s).KeepsContracts := by
  have hlevels : { s with prevLevel := { inc := some x, dec := some y } }.KeepsContracts := h.congr rfl rfl rfl rfl
  exact (hlevels.gateIf _ .inc now).gateIf _ .dec now

/-! ### Running an instruction -/

/-- The answer is a next state that keeps the contracts. -/
def Answer.KeepsContracts (a : Answer) : Prop :=
  ∃ t, a = .next t ∧ t.KeepsContracts

theorem runCommand_answers {i : Instr} {first : State → State} (hf : s.fault = none) :
    ∃ t, runCommand i first s = .next t := by
  rw [runCommand, ifRunning_of_running hf]
  cases s.phase <;> exact ⟨_, rfl⟩

/-- A command keeps the contracts at every step if its first step does, which it takes from Idle. -/
theorem runCommand_keepsContracts {i : Instr} {first : State → State} (h : s.KeepsContracts)
    (hfirst : s.phase = .idle → (first s).KeepsContracts) : Answer.KeepsContracts (runCommand i first s) := by
  obtain ⟨t, ht⟩ := runCommand_answers (i := i) (first := first) h.noFault
  refine ⟨t, ht, ?_⟩
  obtain ⟨-, ⟨hp, rfl⟩ | ⟨k, c, -, -, rfl⟩ | ⟨c, -, -, rfl⟩ | ⟨-, rfl⟩⟩ := runCommand_next ht
  · exact hfirst hp
  · exact h.pushByte k c
  · exact h.endHold c
  · exact h

theorem runEvent_keepsContracts {effect : State → State} (h : s.KeepsContracts)
    (heffect : (effect s).KeepsContracts) : Answer.KeepsContracts (runEvent effect s) :=
  ⟨effect s, runEvent_of_running h.noFault, heffect⟩

theorem execService_answers (hf : s.fault = none) : ∃ t, execService s = .next t := by
  unfold execService
  split
  · exact ⟨_, ifRunning_of_running hf⟩
  · exact ⟨_, ifRunning_of_running hf⟩
  all_goals exact runCommand_answers hf

theorem execService_keepsContracts (h : s.KeepsContracts) : Answer.KeepsContracts (execService s) := by
  obtain ⟨t, ht⟩ := execService_answers h.noFault
  refine ⟨t, ht, ?_⟩
  obtain ⟨-, ⟨-, rfl⟩ | ⟨o, -, rfl⟩ | ⟨o, -, rfl⟩ | ⟨k, d, -, rfl⟩ | ⟨d, -, rfl⟩ | ⟨-, rfl⟩⟩ := execService_next ht
  · exact h.serviceS1
  · exact h.renderFrame _ _
  · exact h.congr rfl rfl rfl rfl
  · exact h.pushByte k _
  · exact h.endHold _
  · exact h

/-- An instruction keeps the contracts. Its operands matter only where a command starts, since MAP, SET and RENDER d check
them at their first step (R77). -/
theorem exec_keepsContracts {i : Instr} (h : s.KeepsContracts)
    (hi : s.phase = .idle → WellFormed s.params.timeWidth i) : Answer.KeepsContracts (exec i s) := by
  cases i with
  | map x y => exact runCommand_keepsContracts h fun hp => h.mapStep (hi hp)
  | set index r g b => exact runCommand_keepsContracts h fun hp => h.setStep (hi hp) r g b
  | clear => exact runCommand_keepsContracts h fun _ => h.congr rfl rfl rfl rfl
  | renderD d => exact runCommand_keepsContracts h fun hp => h.renderStep (hi hp)
  | renderCur =>
    simp only [exec, execRenderCur]
    exact runCommand_keepsContracts h fun _ => h.renderFrame _ _
  | transmit =>
    simp only [exec, execTransmit]
    exact runCommand_keepsContracts h fun _ => h.congr rfl rfl rfl rfl
  | service => exact execService_keepsContracts h
  | edgeInc now => exact runEvent_keepsContracts h (h.gate .inc now)
  | edgeDec now => exact runEvent_keepsContracts h (h.gate .dec now)
  | sample x y now => exact runEvent_keepsContracts h (h.sampleStep x y now)

/-! ### Fetching -/

/-- What a step finds to do keeps the contracts: an instruction that starts a command has its operands in range, and the
machine has not stopped. -/
def Fetched.KeepsContracts : Fetched → Prop
  | .run i u => u.KeepsContracts ∧ (u.phase = .idle → WellFormed u.params.timeWidth i)
  | .done u => u.KeepsContracts
  | .halted _ => False

theorem wellFormed_of_legalWord {timeWidth : Nat} {pw : PortWord} {i : Instr} (hpw : legalWord timeWidth pw = true)
    (hd : decode pw = .instr i) : WellFormed timeWidth i := by
  simpa only [legalWord, hd] using hpw

theorem decode_ne_illegal_of_legalWord {timeWidth : Nat} {pw : PortWord} {code : FaultCode}
    (hpw : legalWord timeWidth pw = true) : decode pw ≠ .illegal code := by
  intro hd
  simp [legalWord, hd] at hpw

theorem runWord_keepsContracts {pw : PortWord} (h : s.KeepsContracts)
    (hpw : legalWord s.params.timeWidth pw = true) : (runWord pw s).KeepsContracts := by
  obtain ⟨i, hd, hrun⟩ | ⟨code, w, hd, -⟩ := runWord_cases pw s
  · rw [hrun]
    exact ⟨h, fun _ => wellFormed_of_legalWord hpw hd⟩
  · exact absurd hd (decode_ne_illegal_of_legalWord hpw)

theorem Phase.ne_idle_of_current {p : Phase} {i : Instr} (h : p.current = some i) : p ≠ .idle := by
  rintro rfl
  cases h

theorem fetchCommand_keepsContracts (h : s.KeepsContracts) : (fetchCommand s).KeepsContracts := by
  obtain ⟨i, hcur, hfetch⟩ | ⟨-, -, hfetch⟩ | ⟨w, ws, -, hport, hfetch⟩ := fetchCommand_cases s <;> rw [hfetch]
  · exact ⟨h, fun hp => absurd hp (Phase.ne_idle_of_current hcur)⟩
  · exact h
  · obtain ⟨hw, hws⟩ := List.forall_mem_cons.mp (hport ▸ h.commands)
    exact runWord_keepsContracts ⟨h.noFault, hws, h.events⟩ hw

theorem fetchEvent_keepsContracts (h : s.KeepsContracts) : (fetchEvent s).KeepsContracts := by
  obtain ⟨-, hfetch⟩ | ⟨e, es, hport, hfetch⟩ := fetchEvent_cases s <;> rw [hfetch]
  · exact h
  · obtain ⟨he, hes⟩ := List.forall_mem_cons.mp (hport ▸ h.events)
    exact runWord_keepsContracts ⟨h.noFault, h.commands, hes⟩ he

theorem fetch_keepsContracts (h : s.KeepsContracts) : (fetch s).KeepsContracts := by
  obtain ⟨ts, -, hfetch⟩ | ⟨f, hf, -⟩ | ⟨-, -, hfetch⟩ | ⟨ts, -, -, hfetch⟩ | ⟨a, r, ts, -, -, hfetch⟩ := fetch_cases s
  case inr.inl => simp [h.noFault] at hf
  all_goals rw [hfetch]
  · exact State.KeepsContracts.doReset (h.congr rfl rfl rfl rfl)
  · exact h
  · exact fetchEvent_keepsContracts (h.congr rfl rfl rfl rfl)
  · exact fetchCommand_keepsContracts (h.congr rfl rfl rfl rfl)

/-- Settles O52: it holds, since what a step fetches under the contracts keeps them, and so does running it. -/
theorem stepKeepsContracts : Obligations.StepKeepsContracts := by
  intro s h
  have hfetched := fetch_keepsContracts h
  cases hfetch : fetch s with
  | run i u =>
    rw [hfetch] at hfetched
    obtain ⟨hu, hi⟩ := hfetched
    rw [step_of_run hfetch]
    exact exec_keepsContracts hu hi
  | done t =>
    rw [hfetch] at hfetched
    exact ⟨t, step_of_done hfetch, hfetched⟩
  | halted r =>
    rw [hfetch] at hfetched
    exact hfetched.elim

end Sys2Proof.Machine

/-! ## Encoding and decoding (spec/30_encoding.md)

A field of a word is a quotient of the word's number modulo a power of two, and the word of an instruction is the sum of
its operands, each at its place: both directions between words and instructions are arithmetic on these numbers. -/

namespace Sys2Proof

variable {m n : Nat}

/-! ### Fields and words as numbers -/

theorem field_eq_iff {w : BitVec n} {lo len : Nat} {v : BitVec len} :
    field w lo len = v ↔ w.toNat / 2 ^ lo % 2 ^ len = v.toNat := by
  rw [← BitVec.toNat_inj, field, BitVec.extractLsb'_toNat, Nat.shiftRight_eq_div_pow]

theorem toNat_field (w : BitVec n) (lo len : Nat) : (field w lo len).toNat = w.toNat / 2 ^ lo % 2 ^ len :=
  (field_eq_iff.mp rfl).symm

theorem toNat_append_eq_add (a : BitVec m) (b : BitVec n) : (a ++ b).toNat = a.toNat * 2 ^ n + b.toNat := by
  rw [BitVec.toNat_append, ← Nat.shiftLeft_add_eq_or_of_lt b.isLt, Nat.shiftLeft_eq]

theorem toNat_mapWord (x y : Coord) :
    (0b001#3 ++ 0#23 ++ y ++ x).toNat = 0x20000000 + y.toNat * 8 + x.toNat := by
  simp only [toNat_append_eq_add, BitVec.toNat_ofNat]
  omega

theorem toNat_setWord (index : Index) (r g b : Byte) :
    (0b010#3 ++ index ++ r ++ g ++ b).toNat =
      0x40000000 + index.toNat * 16777216 + r.toNat * 65536 + g.toNat * 256 + b.toNat := by
  simp only [toNat_append_eq_add, BitVec.toNat_ofNat]
  omega

theorem toNat_renderWord (d : Digit) : (0b100#3 ++ 0#1 ++ 0#24 ++ d).toNat = 0x80000000 + d.toNat := by
  simp only [toNat_append_eq_add, BitVec.toNat_ofNat]
  omega

theorem toNat_sampleWord (a b : BitVec 1) : (0b10#2 ++ 0#4 ++ b ++ a).toNat = 0x80 + b.toNat * 2 + a.toNat := by
  simp only [toNat_append_eq_add, BitVec.toNat_ofNat]
  omega

/-! ### The encodings as numbers (R73, R74, R75, R81) -/

theorem eq_ofNat_of_toNat_eq {w : BitVec n} {v : Nat} (h : w.toNat = v) : w = BitVec.ofNat n v := by
  rw [← h, BitVec.ofNat_toNat, BitVec.setWidth_eq]

theorem encode_map (x y : Coord) :
    encode (.map x y) = .command (BitVec.ofNat 32 (0x20000000 + y.toNat * 8 + x.toNat)) :=
  congrArg PortWord.command (eq_ofNat_of_toNat_eq (toNat_mapWord x y))

theorem encode_set (index : Index) (r g b : Byte) :
    encode (.set index r g b) =
      .command (BitVec.ofNat 32
        (0x40000000 + index.toNat * 16777216 + r.toNat * 65536 + g.toNat * 256 + b.toNat)) :=
  congrArg PortWord.command (eq_ofNat_of_toNat_eq (toNat_setWord index r g b))

theorem encode_renderD (d : Digit) : encode (.renderD d) = .command (BitVec.ofNat 32 (0x80000000 + d.toNat)) :=
  congrArg PortWord.command (eq_ofNat_of_toNat_eq (toNat_renderWord d))

theorem encode_sample (a b : Level) (now : Time) :
    encode (.sample a b now) =
      .event (BitVec.ofNat 8 (0x80 + (bitOfLevel b).toNat * 2 + (bitOfLevel a).toNat)) now :=
  congrArg (PortWord.event · now) (eq_ofNat_of_toNat_eq (toNat_sampleWord (bitOfLevel a) (bitOfLevel b)))

@[simp] theorem bitOfLevel_levelOfBit (b : BitVec 1) : bitOfLevel (levelOfBit b) = b := by
  revert b
  decide

/-! ### Decoding an encoding -/

theorem decode_encode_map (x y : Coord) : decode (encode (.map x y)) = .instr (.map x y) := by
  have hw := toNat_mapWord x y
  simp only [encode, decode]
  generalize 0b001#3 ++ 0#23 ++ y ++ x = w at hw ⊢
  have hop : field w 29 3 = 0b001#3 := field_eq_iff.mpr (by simp only [hw, BitVec.toNat_ofNat]; omega)
  have hzero : field w 6 23 = 0#23 := field_eq_iff.mpr (by simp only [hw, BitVec.toNat_ofNat]; omega)
  have hy : field w 3 3 = y := field_eq_iff.mpr (by rw [hw]; omega)
  have hx : field w 0 3 = x := field_eq_iff.mpr (by rw [hw]; omega)
  simp [decodeCommand, decodeFormatM, hop, hzero, hy, hx]

theorem decode_encode_set (index : Index) (r g b : Byte) :
    decode (encode (.set index r g b)) = .instr (.set index r g b) := by
  have hw := toNat_setWord index r g b
  simp only [encode, decode]
  generalize 0b010#3 ++ index ++ r ++ g ++ b = w at hw ⊢
  have hop : field w 29 3 = 0b010#3 := field_eq_iff.mpr (by simp only [hw, BitVec.toNat_ofNat]; omega)
  have hindex : field w 24 5 = index := field_eq_iff.mpr (by rw [hw]; omega)
  have hr : field w 16 8 = r := field_eq_iff.mpr (by rw [hw]; omega)
  have hg : field w 8 8 = g := field_eq_iff.mpr (by rw [hw]; omega)
  have hb : field w 0 8 = b := field_eq_iff.mpr (by rw [hw]; omega)
  simp [decodeCommand, decodeFormatS, hop, hindex, hr, hg, hb]

theorem decode_encode_renderD (d : Digit) : decode (encode (.renderD d)) = .instr (.renderD d) := by
  have hw := toNat_renderWord d
  simp only [encode, decode]
  generalize 0b100#3 ++ 0#1 ++ 0#24 ++ d = w at hw ⊢
  have hop : field w 29 3 = 0b100#3 := field_eq_iff.mpr (by simp only [hw, BitVec.toNat_ofNat]; omega)
  have hsrc : field w 28 1 = 0#1 := field_eq_iff.mpr (by simp only [hw, BitVec.toNat_ofNat]; omega)
  have hzero : field w 4 24 = 0#24 := field_eq_iff.mpr (by simp only [hw, BitVec.toNat_ofNat]; omega)
  have hd : field w 0 4 = d := field_eq_iff.mpr (by rw [hw]; omega)
  simp [decodeCommand, decodeFormatR, hop, hsrc, hzero, hd]

theorem decode_encode_sample (a b : Level) (now : Time) :
    decode (encode (.sample a b now)) = .instr (.sample a b now) := by
  cases a <;> cases b <;> rfl

/-- Settles O2: it holds; the instructions with operands have a lemma each, and the word of any other is one word. -/
theorem decodeOfEncode : Obligations.DecodeOfEncode := by
  intro i
  cases i with
  | map x y => exact decode_encode_map x y
  | set index r g b => exact decode_encode_set index r g b
  | renderD d => exact decode_encode_renderD d
  | sample a b now => exact decode_encode_sample a b now
  | clear | renderCur | transmit | service | edgeInc now | edgeDec now => rfl

/-! ### Encoding what a word decodes to -/

theorem encode_of_decodeFormatM {w : CommandWord} {i : Instr} (hop : field w 29 3 = 0b001#3)
    (h : decodeFormatM w = .instr i) : encode i = .command w := by
  unfold decodeFormatM at h
  split at h <;> cases h
  next hzero =>
    refine congrArg PortWord.command (BitVec.eq_of_toNat_eq ((toNat_mapWord _ _).trans ?_))
    simp only [field_eq_iff, toNat_field, BitVec.toNat_ofNat] at *
    omega

theorem encode_of_decodeFormatS {w : CommandWord} {i : Instr} (hop : field w 29 3 = 0b010#3)
    (h : decodeFormatS w = .instr i) : encode i = .command w := by
  cases h
  refine congrArg PortWord.command (BitVec.eq_of_toNat_eq ((toNat_setWord _ _ _ _).trans ?_))
  simp only [field_eq_iff, toNat_field, BitVec.toNat_ofNat] at *
  omega

/-- A word of format N is its operation field and zeros. -/
theorem encode_of_decodeFormatN {w : CommandWord} {i j : Instr} {op : BitVec 3} (hj : encode j = .command (op ++ 0#29))
    (hop : field w 29 3 = op) (h : decodeFormatN j w = .instr i) : encode i = .command w := by
  unfold decodeFormatN at h
  split at h <;> cases h
  next hzero =>
    refine hj.trans (congrArg PortWord.command (BitVec.eq_of_toNat_eq ((toNat_append_eq_add op 0#29).trans ?_)))
    simp only [field_eq_iff, BitVec.toNat_ofNat] at *
    omega

theorem encode_of_decodeFormatR {w : CommandWord} {i : Instr} (hop : field w 29 3 = 0b100#3)
    (h : decodeFormatR w = .instr i) : encode i = .command w := by
  unfold decodeFormatR at h
  split_ifs at h with hzero hsrc hdigit <;> cases h
  · refine congrArg PortWord.command (BitVec.eq_of_toNat_eq ((toNat_renderWord _).trans ?_))
    simp only [field_eq_iff, toNat_field, BitVec.toNat_ofNat] at *
    omega
  · refine congrArg PortWord.command (BitVec.eq_of_toNat_eq (show 0x90000000 = w.toNat from ?_))
    simp only [field_eq_iff, BitVec.toNat_ofNat] at *
    omega

theorem encode_of_decodeCommand {w : CommandWord} {i : Instr} (h : decodeCommand w = .instr i) :
    encode i = .command w := by
  simp only [decodeCommand] at h
  split_ifs at h with hmap hset hclear hrender htransmit hservice
  · exact encode_of_decodeFormatM hmap h
  · exact encode_of_decodeFormatS hset h
  · exact encode_of_decodeFormatN rfl hclear h
  · exact encode_of_decodeFormatR hrender h
  · exact encode_of_decodeFormatN rfl htransmit h
  · exact encode_of_decodeFormatN rfl hservice h

theorem encode_of_decodeEdge {w : EventWord} {now : Time} {i : Instr} (hkind : field w 6 2 = 0b01#2)
    (h : decodeEdge w now = .instr i) : encode i = .event w now := by
  unfold decodeEdge at h
  split_ifs at h with hzero hbutton <;> cases h
  · refine congrArg (PortWord.event · now) (BitVec.eq_of_toNat_eq (show 0x40 = w.toNat from ?_))
    simp only [field_eq_iff, BitVec.toNat_ofNat] at *
    omega
  · refine congrArg (PortWord.event · now) (BitVec.eq_of_toNat_eq (show 0x41 = w.toNat from ?_))
    simp only [field_eq_iff, BitVec.toNat_ofNat] at *
    omega

theorem encode_of_decodeSample {w : EventWord} {now : Time} {i : Instr} (hkind : field w 6 2 = 0b10#2)
    (h : decodeSample w now = .instr i) : encode i = .event w now := by
  unfold decodeSample at h
  split_ifs at h with hzero
  cases h
  refine congrArg (PortWord.event · now) (BitVec.eq_of_toNat_eq ((toNat_sampleWord _ _).trans ?_))
  simp only [bitOfLevel_levelOfBit, field_eq_iff, toNat_field, BitVec.toNat_ofNat] at *
  omega

theorem encode_of_decodeEvent {w : EventWord} {now : Time} {i : Instr} (h : decodeEvent w now = .instr i) :
    encode i = .event w now := by
  simp only [decodeEvent] at h
  split_ifs at h with hedge hsample
  · exact encode_of_decodeEdge hedge h
  · exact encode_of_decodeSample hsample h

/-- Settles O3: it holds, since every format's word is the sum of the fields the decoder reads from it. -/
theorem encodeOfDecode : Obligations.EncodeOfDecode := by
  intro pw i h
  cases pw with
  | command w => exact encode_of_decodeCommand h
  | event w now => exact encode_of_decodeEvent h

/-- Settles O1, by evaluating the decoder on the ten words. -/
theorem specWordsDecode : Obligations.SpecWordsDecode := by
  unfold Obligations.SpecWordsDecode
  decide

/-! ### The illegal words (R77, R82) -/

theorem decodeFormatN_illegal_iff (i : Instr) (w : CommandWord) :
    decodeFormatN i w = .illegal .illegalCommand ↔ w.toNat % 2 ^ 29 ≠ 0 := by
  unfold decodeFormatN
  split <;> simp_all [field_eq_iff]

theorem decodeFormatM_illegal_iff (w : CommandWord) :
    decodeFormatM w = .illegal .illegalCommand ↔ w.toNat % 2 ^ 29 / 2 ^ 6 ≠ 0 := by
  have hzero : w.toNat % 2 ^ 29 / 2 ^ 6 = w.toNat / 2 ^ 6 % 2 ^ 23 := by omega
  rw [hzero]
  unfold decodeFormatM
  split <;> simp_all [field_eq_iff]

theorem decodeFormatR_illegal_iff (w : CommandWord) :
    decodeFormatR w = .illegal .illegalCommand ↔
      w.toNat % 2 ^ 29 % 2 ^ 28 / 2 ^ 4 ≠ 0 ∨ (w.toNat % 2 ^ 29 / 2 ^ 28 = 1 ∧ w.toNat % 2 ^ 29 % 2 ^ 4 ≠ 0) := by
  have hzero : w.toNat % 2 ^ 29 % 2 ^ 28 / 2 ^ 4 = w.toNat / 2 ^ 4 % 2 ^ 24 := by omega
  have hsrc : w.toNat % 2 ^ 29 / 2 ^ 28 = w.toNat / 2 ^ 28 % 2 := by omega
  have hdigit : w.toNat % 2 ^ 29 % 2 ^ 4 = w.toNat % 2 ^ 4 := by omega
  rw [hzero, hsrc, hdigit]
  unfold decodeFormatR
  split_ifs <;> simp_all [field_eq_iff]

/-- The illegal list of R77, read format by format. -/
theorem decodeCommand_illegal_iff (w : CommandWord) :
    decodeCommand w = .illegal .illegalCommand ↔ Machine.IllegalCommand w := by
  have hop : w.toNat / 2 ^ 29 % 2 ^ 3 = w.toNat / 2 ^ 29 := Nat.mod_eq_of_lt (by omega)
  have hlt : w.toNat / 2 ^ 29 < 8 := by omega
  simp only [decodeCommand, Machine.IllegalCommand, field_eq_iff, hop, BitVec.toNat_ofNat]
  split_ifs with hmap hset hclear hrender htransmit hservice
  · rw [decodeFormatM_illegal_iff]
    omega
  · simp only [decodeFormatS, reduceCtorEq, false_iff]
    omega
  · rw [decodeFormatN_illegal_iff]
    omega
  · rw [decodeFormatR_illegal_iff]
    omega
  · rw [decodeFormatN_illegal_iff]
    omega
  · rw [decodeFormatN_illegal_iff]
    omega
  · simp only [true_iff]
    omega

theorem decodeEdge_illegal_iff (w : EventWord) (now : Time) :
    decodeEdge w now = .illegal .illegalEvent ↔ w.toNat / 2 ^ 1 % 2 ^ 5 ≠ 0 := by
  unfold decodeEdge
  split_ifs <;> simp_all [field_eq_iff]

theorem decodeSample_illegal_iff (w : EventWord) (now : Time) :
    decodeSample w now = .illegal .illegalEvent ↔ w.toNat / 2 ^ 2 % 2 ^ 4 ≠ 0 := by
  unfold decodeSample
  split <;> simp_all [field_eq_iff]

/-- The illegal list of R82, read kind by kind. -/
theorem decodeEvent_illegal_iff (w : EventWord) (now : Time) :
    decodeEvent w now = .illegal .illegalEvent ↔ Machine.IllegalEvent w := by
  have hw := w.isLt
  simp only [decodeEvent, Machine.IllegalEvent, field_eq_iff, BitVec.toNat_ofNat]
  split_ifs with hedge hsample
  · rw [decodeEdge_illegal_iff]
    omega
  · rw [decodeSample_illegal_iff]
    omega
  · simp only [true_iff]
    omega

end Sys2Proof

/-! ## What a step takes (spec/60_exceptions.md R232, spec/20_memory.md R56)

Under a given turn a fetch has one outcome; a word taken runs its instruction or raises the fault of an illegal word. -/

namespace Sys2Proof.Machine

open Sys2Proof

variable {s : State} {ts : List Turn}

/-! ### The turn -/

theorem fetch_of_no_turn (hf : s.fault = none) (ht : s.turns = []) : fetch s = .done s := by
  simp [fetch, hf, ht]

theorem fetch_of_input (hf : s.fault = none) (ht : s.turns = .input :: ts) :
    fetch s = fetchEvent { s with turns := ts } := by
  simp [fetch, hf, ht]

theorem fetch_of_command {a : Bool} {r : Option Nat} (hf : s.fault = none) (ht : s.turns = .command a r :: ts) :
    fetch s = fetchCommand { s with turns := ts, txAccepts := a, holdReport := r } := by
  simp [fetch, hf, ht]

theorem step_of_reset (ht : s.turns = .reset :: ts) : step s = .next { s with turns := ts }.doReset := by
  simp [step, fetch, ht]

/-! ### The word -/

theorem fetchCommand_of_idle {w : CommandWord} {ws : List CommandWord} (hp : s.phase = .idle)
    (hw : s.cmdPort = w :: ws) : fetchCommand s = runWord (.command w) { s with cmdPort := ws } := by
  simp [fetchCommand, hp, Phase.current, hw]

theorem fetchCommand_of_no_word (hp : s.phase = .idle) (hw : s.cmdPort = []) : fetchCommand s = .done s := by
  simp [fetchCommand, hp, Phase.current, hw]

theorem fetchCommand_of_current {i : Instr} (hp : s.phase.current = some i) : fetchCommand s = .run i s := by
  simp [fetchCommand, hp]

theorem fetchEvent_of_event {e : PortEvent} {es : List PortEvent} (he : s.evPort = e :: es) :
    fetchEvent s =
      runWord (.event e.word (nowOfCount s.params.timeWidth e.count)) { s with evPort := es } := by
  simp [fetchEvent, he]

theorem fetchEvent_of_no_event (he : s.evPort = []) : fetchEvent s = .done s := by
  simp [fetchEvent, he]

theorem runWord_of_instr {pw : PortWord} {i : Instr} (hd : decode pw = .instr i) : runWord pw s = .run i s := by
  simp [runWord, hd]

theorem runWord_of_illegal_command {w : CommandWord} {code : FaultCode} (hd : decode (.command w) = .illegal code)
    (hf : s.fault = none) :
    runWord (.command w) s = .done { s with fault := some { code := code, word := w } } := by
  simp [runWord, hd, raiseFault_of_running hf]

theorem runWord_of_illegal_event {w : EventWord} {now : Time} {code : FaultCode}
    (hd : decode (.event w now) = .illegal code) (hf : s.fault = none) :
    runWord (.event w now) s = .done { s with fault := some { code := code, word := BitVec.ofNat 32 w.toNat } } := by
  simp [runWord, hd, raiseFault_of_running hf, BitVec.ofNat_toNat]

/-! ### The statements about one step -/

/-- Settles O40: it holds; the word taken decodes to the instruction that runs. -/
theorem stepRunsCommandWord : Obligations.StepRunsCommandWord := by
  intro s accepts report ts w ws i hs ht hw hd
  have hfetch := (fetch_of_command hs.noFault ht).trans (fetchCommand_of_idle (by exact hs.idle) (by exact hw))
  exact step_of_run (hfetch.trans (runWord_of_instr hd))

/-- Settles O41: it holds; a command in progress is what the command agent fetches. -/
theorem stepContinuesCommand : Obligations.StepContinuesCommand := by
  intro s accepts report ts i hf ht hp
  exact step_of_run ((fetch_of_command hf ht).trans (fetchCommand_of_current hp))

/-- Settles O42: it holds; the event taken decodes to the instruction that runs. -/
theorem stepRunsEventWord : Obligations.StepRunsEventWord := by
  intro s ts e es i hf ht he hd
  have hfetch := (fetch_of_input hf ht).trans (fetchEvent_of_event (by exact he))
  exact step_of_run (hfetch.trans (runWord_of_instr hd))

/-- Settles O43: it holds; with nothing to take, a fetch leaves the state with the turn taken. -/
theorem stepWaitsForInput : Obligations.StepWaitsForInput := by
  refine ⟨fun s hf ht => ?_, fun s ts hf ht he => ?_, fun s accepts report ts hs ht hw => ?_⟩
  · exact step_of_done (fetch_of_no_turn hf ht)
  · exact step_of_done ((fetch_of_input hf ht).trans (fetchEvent_of_no_event he))
  · exact step_of_done ((fetch_of_command hs.noFault ht).trans (fetchCommand_of_no_word hs.idle hw))

/-- Settles O4: it holds, by the decoder's conditions as numbers and the fetch of an illegal word. -/
theorem illegalCommandFaults : Obligations.IllegalCommandFaults := by
  refine ⟨decodeCommand_illegal_iff, fun s w ws accepts report ts hs ht hw hill => ?_⟩
  have hd := (decodeCommand_illegal_iff w).mpr hill
  have hfetch := (fetch_of_command hs.noFault ht).trans (fetchCommand_of_idle (by exact hs.idle) (by exact hw))
  exact step_of_done (hfetch.trans (runWord_of_illegal_command hd hs.noFault))

/-- Settles O5: it holds, by the decoder's conditions as numbers and the fetch of an illegal event. -/
theorem illegalEventFaults : Obligations.IllegalEventFaults := by
  refine ⟨decodeEvent_illegal_iff, fun s e es ts hf ht he hill => ?_⟩
  have hd := (decodeEvent_illegal_iff e.word (nowOfCount s.params.timeWidth e.count)).mpr hill
  have hfetch := (fetch_of_input hf ht).trans (fetchEvent_of_event (by exact he))
  exact step_of_done (hfetch.trans (runWord_of_illegal_event hd hf))

/-! ### Reset (R250) -/

/-- The state after reset has the values of R20 whatever stands at the ports. -/
theorem initial_hasResetValues (p : Params) (cmds : List CommandWord) (evs : List PortEvent) (turns : List Turn)
    (accepts : Bool) (report : Option Nat) :
    { State.initial p with
      cmdPort := cmds, evPort := evs, turns := turns, txAccepts := accepts
      holdReport := report }.HasResetValues p where
  params := rfl
  pb i hi := by simp [State.initial, hi]
  currentDigit := rfl
  redrawPending := rfl
  lastTs b := by cases b <;> rfl
  prevLevel b := by cases b <;> cases h : p.edgeInit <;> simp [State.initial, resetLevel, h]
  mapResult := rfl
  fault := rfl
  phase := rfl
  txLog := rfl
  frames := rfl

/-- Settles O46: it holds; a reset rebuilds the state from its parameters, whatever it was. -/
theorem resetSetsEveryField : Obligations.ResetSetsEveryField :=
  ⟨initial_hasResetValues _ [] [] [] false none, fun _ _ ht =>
    ⟨_, step_of_reset ht, initial_hasResetValues _ _ _ _ _ _⟩⟩

end Sys2Proof.Machine

/-! ## What an instruction can do (spec/20_memory.md R56)

The atomic steps of the ten instructions, said once: a command takes its first step when the command agent is Idle, and
after it the steps of its frame and of SERVICE, or waits; an event takes its one step. From these, the fields that each
instruction writes. -/

namespace Sys2Proof.Machine

open Sys2Proof

variable {i : Instr} {s t : State}

/-! ### The atomic steps -/

/-- The first step of a command (the identity for an event, which has none). -/
def firstStep : Instr → State → State
  | .map x y => mapStep x y
  | .set index r g b => setStep index r g b
  | .clear => State.clearPb
  | .renderD d => renderStep d
  | .renderCur => fun s => (s.renderDigit s.currentDigit).startFrame (.renderCur s.currentDigit)
  | .transmit => fun s => s.startFrame .transmit
  | .service => serviceS1
  | .edgeInc _ | .edgeDec _ | .sample _ _ _ => id

/-- The one step of an event (the identity for a command). -/
def eventStep : Instr → State → State
  | .edgeInc now => fun s => s.gate .inc now
  | .edgeDec now => fun s => s.gate .dec now
  | .sample x y now => sampleStep x y now
  | .map _ _ | .set _ _ _ _ | .clear | .renderD _ | .renderCur | .transmit | .service => id

/-- How the agents run an instruction: SERVICE by its own steps, another command by its first step and its frame, an
event by its one step. -/
theorem exec_cases (i : Instr) (s : State) :
    (i = .service ∧ exec i s = execService s) ∨ (isCommand i = true ∧ exec i s = runCommand i (firstStep i) s) ∨
      (isCommand i = false ∧ exec i s = runEvent (eventStep i) s) := by
  cases i with
  | service => exact .inl ⟨rfl, rfl⟩
  | map | set | clear | renderD | renderCur | transmit => exact .inr (.inl ⟨rfl, rfl⟩)
  | edgeInc | edgeDec | sample => exact .inr (.inr ⟨rfl, rfl⟩)

/-- The next atomic step of a command: its first when the command agent is Idle, else the one its phase names; while
another command is in progress it waits (R28, R56, R126). -/
def commandStep (i : Instr) (s : State) : State :=
  match s.phase with
  | .idle => firstStep i s
  | .push k c => if c.instr = i then s.pushByte k c else s
  | .holding c => if c.instr = i then s.endHold c else s
  | .serve .s2 _ => if i = .service then serviceS2 s else s
  | .serve .s4 _ => if i = .service then serviceS4 s else s

theorem commandStep_of_idle (hp : s.phase = .idle) : commandStep i s = firstStep i s := by
  simp [commandStep, hp]

theorem commandStep_of_push {k : Fin 75} {c : FrameCmd} (hp : s.phase = .push k c) :
    commandStep i s = if c.instr = i then s.pushByte k c else s := by
  simp [commandStep, hp]

theorem commandStep_of_holding {c : FrameCmd} (hp : s.phase = .holding c) :
    commandStep i s = if c.instr = i then s.endHold c else s := by
  simp [commandStep, hp]

theorem commandStep_of_s2 {o : Option Digit} (hp : s.phase = .serve .s2 o) :
    commandStep i s = if i = .service then serviceS2 s else s := by
  simp [commandStep, hp]

theorem commandStep_of_s4 {o : Option Digit} (hp : s.phase = .serve .s4 o) :
    commandStep i s = if i = .service then serviceS4 s else s := by
  simp [commandStep, hp]

theorem execService_eq (hf : s.fault = none) : execService s = .next (commandStep .service s) := by
  cases hp : s.phase with
  | idle => rw [execService_of_idle hf hp, commandStep_of_idle hp]; rfl
  | push k c => simp [execService, runCommand, ifRunning_of_running hf, hp, commandStep_of_push hp]
  | holding c => simp [execService, runCommand, ifRunning_of_running hf, hp, commandStep_of_holding hp]
  | serve st o =>
    cases st with
    | s2 => simp [execService, ifRunning_of_running hf, hp, commandStep_of_s2 hp]
    | s4 => simp [execService, ifRunning_of_running hf, hp, commandStep_of_s4 hp]

theorem runCommand_eq (hi : i ≠ .service) (hf : s.fault = none) :
    runCommand i (firstStep i) s = .next (commandStep i s) := by
  cases hp : s.phase with
  | idle => rw [runCommand_of_idle hf hp, commandStep_of_idle hp]
  | push k c => simp [runCommand, ifRunning_of_running hf, hp, commandStep_of_push hp]
  | holding c => simp [runCommand, ifRunning_of_running hf, hp, commandStep_of_holding hp]
  | serve st o =>
    cases st with
    | s2 => simp [runCommand, ifRunning_of_running hf, hp, commandStep_of_s2 hp, hi]
    | s4 => simp [runCommand, ifRunning_of_running hf, hp, commandStep_of_s4 hp, hi]

theorem exec_command (hi : isCommand i = true) (hf : s.fault = none) : exec i s = .next (commandStep i s) := by
  by_cases hs : i = .service
  · subst hs
    exact execService_eq hf
  · obtain ⟨h, -⟩ | ⟨-, h⟩ | ⟨h, -⟩ := exec_cases i s
    · exact absurd h hs
    · exact h.trans (runCommand_eq hs hf)
    · simp [hi] at h

theorem exec_service_of_s2 {o : Option Digit} (hf : s.fault = none) (hp : s.phase = .serve .s2 o) :
    exec .service s = .next (serviceS2 s) := by
  rw [exec_command rfl hf, commandStep_of_s2 hp, if_pos rfl]

theorem exec_event (hi : isCommand i = false) (hf : s.fault = none) : exec i s = .next (eventStep i s) := by
  cases i with
  | edgeInc | edgeDec | sample => exact runEvent_of_running hf
  | map | set | clear | renderD | renderCur | transmit | service => cases hi

theorem exec_of_ready (hi : isCommand i = true) (hs : s.Ready) : exec i s = .next (firstStep i s) := by
  rw [exec_command hi hs.noFault, commandStep_of_idle hs.idle]

theorem execService_of_fault {f : FaultRecord} (hf : s.fault = some f) :
    execService s = .fault (.stopped f.code f.word) := by
  unfold execService
  split
  all_goals exact ifRunning_of_fault hf

theorem exec_of_fault (i : Instr) {f : FaultRecord} (hf : s.fault = some f) :
    exec i s = .fault (.stopped f.code f.word) := by
  obtain ⟨-, h⟩ | ⟨-, h⟩ | ⟨-, h⟩ := exec_cases i s <;> rw [h]
  · exact execService_of_fault hf
  · exact runCommand_of_fault hf
  · exact ifRunning_of_fault hf

/-- Which atomic step led from `s` to `t` when `i` ran. -/
inductive ExecStep (i : Instr) (s t : State) : Prop where
  | first (hi : isCommand i = true) (hp : s.phase = .idle) (ht : t = firstStep i s)
  | push (k : Fin 75) (c : FrameCmd) (hc : c.instr = i) (hp : s.phase = .push k c) (ht : t = s.pushByte k c)
  | hold (c : FrameCmd) (hc : c.instr = i) (hp : s.phase = .holding c) (ht : t = s.endHold c)
  | s2 (o : Option Digit) (hi : i = .service) (hp : s.phase = .serve .s2 o) (ht : t = serviceS2 s)
  | s4 (o : Option Digit) (hi : i = .service) (hp : s.phase = .serve .s4 o) (ht : t = serviceS4 s)
  | wait (hi : isCommand i = true) (hp : s.phase ≠ .idle) (ht : t = s)
  | event (hi : isCommand i = false) (ht : t = eventStep i s)

theorem commandStep_execStep (hi : isCommand i = true) (s : State) : ExecStep i s (commandStep i s) := by
  cases hp : s.phase with
  | idle => exact .first hi hp (commandStep_of_idle hp)
  | push k c =>
    rw [commandStep_of_push hp]
    split
    · next hc => exact .push k c hc hp rfl
    · exact .wait hi (by simp [hp]) rfl
  | holding c =>
    rw [commandStep_of_holding hp]
    split
    · next hc => exact .hold c hc hp rfl
    · exact .wait hi (by simp [hp]) rfl
  | serve st o =>
    cases st with
    | s2 =>
      rw [commandStep_of_s2 hp]
      split
      · next h => exact .s2 o h hp rfl
      · exact .wait hi (by simp [hp]) rfl
    | s4 =>
      rw [commandStep_of_s4 hp]
      split
      · next h => exact .s4 o h hp rfl
      · exact .wait hi (by simp [hp]) rfl

/-- The inversion of `exec`: an instruction that answers a next state took one of its atomic steps, no fault being
recorded. -/
theorem exec_next (h : exec i s = .next t) : s.fault = none ∧ ExecStep i s t := by
  have hf : s.fault = none := by
    by_contra hne
    obtain ⟨f, hf⟩ := Option.ne_none_iff_exists'.mp hne
    simp [exec_of_fault i hf] at h
  refine ⟨hf, ?_⟩
  cases hi : isCommand i with
  | true =>
    cases (exec_command hi hf).symm.trans h
    exact commandStep_execStep hi s
  | false =>
    cases (exec_event hi hf).symm.trans h
    exact .event hi rfl

/-! ### The first step of a command -/

theorem mapStep_cases (x y : Coord) (s : State) :
    (coordsLegal x y = true ∧
        mapStep x y s = { s with mapResult := some (BitVec.ofNat 5 (pidx x.toNat y.toNat)) }) ∨
      (coordsLegal x y = false ∧ mapStep x y s = s.raiseFault .operandRange (faultWord (.map x y))) := by
  cases h : coordsLegal x y <;> simp [mapStep, h]

theorem setStep_cases (index : Index) (r g b : Byte) (s : State) :
    (indexLegal index = true ∧ setStep index r g b s = s.setPixel index.toNat (pixelOf r g b)) ∨
      (indexLegal index = false ∧
        setStep index r g b s = s.raiseFault .operandRange (faultWord (.set index r g b))) := by
  cases h : indexLegal index <;> simp [setStep, h]

theorem renderStep_cases (d : Digit) (s : State) :
    (digitLegal d = true ∧ renderStep d s = (s.renderDigit d).startFrame (.renderD d)) ∨
      (digitLegal d = false ∧ renderStep d s = s.raiseFault .operandRange (faultWord (.renderD d))) := by
  cases h : digitLegal d <;> simp [renderStep, h]

theorem serviceS1_cases (s : State) :
    (s.redrawPending = true ∧ serviceS1 s = { s with phase := .serve .s2 none }) ∨
      (s.redrawPending = false ∧ serviceS1 s = s) := by
  cases h : s.redrawPending <;> simp [serviceS1, h]

/-- The instruction checks an operand at its first step and may raise OPERAND_RANGE there (R77). -/
def checksOperand : Instr → Bool
  | .map _ _ | .set _ _ _ _ | .renderD _ => true
  | .clear | .renderCur | .transmit | .service | .edgeInc _ | .edgeDec _ | .sample _ _ _ => false

/-- What the first step of `i` did from `s` to `t`. -/
inductive FirstStepKind (i : Instr) (s t : State) : Prop where
  | result (x y : Coord) (hi : i = .map x y)
      (ht : t = { s with mapResult := some (BitVec.ofNat 5 (pidx x.toNat y.toNat)) })
  | buffer (pb : PixelBuffer) (hi : (∃ index r g b, i = .set index r g b) ∨ i = .clear) (ht : t = { s with pb := pb })
  | render (d : Digit) (c : FrameCmd) (hc : c.digit = some d) (hd : d.toNat ≤ 9 ∨ d = s.currentDigit)
      (hi : i = .renderD d ∨ i = .renderCur) (ht : t = (s.renderDigit d).startFrame c)
  | transmit (hi : i = .transmit) (ht : t = s.startFrame .transmit)
  | s1 (hi : i = .service) (ht : t = { s with phase := .serve .s2 none })
  | fault (w : CommandWord) (hi : checksOperand i = true) (ht : t = s.raiseFault .operandRange w)
  | nothing (ht : t = s)

theorem firstStep_kind (i : Instr) (s : State) : FirstStepKind i s (firstStep i s) := by
  cases i with
  | map x y =>
    obtain ⟨-, h⟩ | ⟨-, h⟩ := mapStep_cases x y s
    · exact .result x y rfl h
    · exact .fault _ rfl h
  | set index r g b =>
    obtain ⟨-, h⟩ | ⟨-, h⟩ := setStep_cases index r g b s
    · exact .buffer _ (.inl ⟨index, r, g, b, rfl⟩) h
    · exact .fault _ rfl h
  | clear => exact .buffer _ (.inr rfl) rfl
  | renderD d =>
    obtain ⟨hd, h⟩ | ⟨-, h⟩ := renderStep_cases d s
    · exact .render d _ rfl (.inl (of_decide_eq_true hd)) (.inl rfl) h
    · exact .fault _ rfl h
  | renderCur => exact .render s.currentDigit _ rfl (.inr rfl) (.inr rfl) rfl
  | transmit => exact .transmit rfl rfl
  | service =>
    obtain ⟨-, h⟩ | ⟨-, h⟩ := serviceS1_cases s
    · exact .s1 rfl h
    · exact .nothing h
  | edgeInc | edgeDec | sample => exact .nothing rfl

/-! ### The fields that an instruction writes (R20) -/

/-- The state `s` with the fields that instruction `i` writes taken from `t`. -/
def writing (i : Instr) (s t : State) : State :=
  match i with
  | .map _ _ => { s with mapResult := t.mapResult, fault := t.fault }
  | .set _ _ _ _ => { s with pb := t.pb, fault := t.fault }
  | .clear => { s with pb := t.pb }
  | .renderD _ => { s with pb := t.pb, fault := t.fault, phase := t.phase, txLog := t.txLog, frames := t.frames }
  | .renderCur => { s with pb := t.pb, phase := t.phase, txLog := t.txLog, frames := t.frames }
  | .transmit => { s with phase := t.phase, txLog := t.txLog, frames := t.frames }
  | .service =>
    { s with
      pb := t.pb, redrawPending := t.redrawPending, phase := t.phase, txLog := t.txLog
      frames := t.frames }
  | .edgeInc _ | .edgeDec _ =>
    { s with currentDigit := t.currentDigit, redrawPending := t.redrawPending, lastTs := t.lastTs }
  | .sample _ _ _ =>
    { s with
      currentDigit := t.currentDigit, redrawPending := t.redrawPending, lastTs := t.lastTs
      prevLevel := t.prevLevel }

@[simp] theorem writing_self (i : Instr) (s : State) : writing i s s = s := by
  cases i <;> rfl

/-- Raising a fault is within the frame of an instruction that may raise one. -/
theorem raiseFault_eq_writing {code : FaultCode} {w : CommandWord}
    (hi : ∀ f, { s with fault := f } = writing i s { s with fault := f }) :
    s.raiseFault code w = writing i s (s.raiseFault code w) := by
  obtain ⟨-, h⟩ | ⟨-, h⟩ := raiseFault_cases s code w <;> rw [h]
  · exact hi _
  · rw [writing_self]

theorem firstStep_eq_writing (i : Instr) (s : State) : firstStep i s = writing i s (firstStep i s) := by
  obtain ⟨x, y, rfl, ht⟩ | ⟨pb, ⟨index, r, g, b, rfl⟩ | rfl, ht⟩ | ⟨d, c, -, -, rfl | rfl, ht⟩ | ⟨rfl, ht⟩ | ⟨rfl, ht⟩ |
    ⟨w, hi, ht⟩ | ht := firstStep_kind i s <;> rw [ht]
  case fault =>
    cases i with
    | map | set | renderD => exact raiseFault_eq_writing fun _ => rfl
    | clear | renderCur | transmit | service | edgeInc | edgeDec | sample => cases hi
  case nothing => rw [writing_self]
  all_goals rfl

theorem pushByte_eq_writing (s : State) (k : Fin 75) (c : FrameCmd) :
    s.pushByte k c = writing c.instr s (s.pushByte k c) := by
  obtain ⟨-, h⟩ | ⟨-, h⟩ := pushByte_cases s k c <;> rw [h]
  · cases c <;> rfl
  · rw [writing_self]

theorem endHold_eq_writing (s : State) (c : FrameCmd) : s.endHold c = writing c.instr s (s.endHold c) := by
  obtain ⟨-, h⟩ | ⟨-, h⟩ := endHold_cases s c <;> rw [h]
  · cases c <;> rfl
  · rw [writing_self]

theorem eventStep_eq_writing (i : Instr) (s : State) : eventStep i s = writing i s (eventStep i s) := by
  cases i with
  | edgeInc now => exact gate_frame s .inc now
  | edgeDec now => exact gate_frame s .dec now
  | sample x y now =>
    simp only [eventStep, sampleStep]
    rw [gateIf_frame, gateIf_frame]
    rfl
  | map | set | clear | renderD | renderCur | transmit | service => rfl

/-- An event's step writes the digit, the flag, the timestamps and the kept levels at most. -/
theorem eventStep_frame (i : Instr) (s : State) :
    eventStep i s =
      { s with
        currentDigit := (eventStep i s).currentDigit, redrawPending := (eventStep i s).redrawPending
        lastTs := (eventStep i s).lastTs, prevLevel := (eventStep i s).prevLevel } := by
  rw [eventStep_eq_writing]
  cases i <;> rfl

/-- The frame of every instruction: it writes the fields that R20 names it for, and no other. -/
theorem exec_eq_writing (h : exec i s = .next t) : t = writing i s t := by
  obtain ⟨-, h⟩ := exec_next h
  cases h with
  | first hi hp ht => rw [ht, ← firstStep_eq_writing]
  | push k c hc hp ht => rw [ht, ← hc, ← pushByte_eq_writing]
  | hold c hc hp ht => rw [ht, ← hc, ← endHold_eq_writing]
  | s2 o hi hp ht => rw [ht, hi]; rfl
  | s4 o hi hp ht => rw [ht, hi]; rfl
  | wait hi hp ht => rw [ht, writing_self]
  | event hi ht => rw [ht, ← eventStep_eq_writing]

/-! ### The statements about one instruction -/

/-- Settles O34: it holds; each field stands in the frame of the instructions that R20 names for it and in no other. -/
theorem namedWritersOnly : Obligations.NamedWritersOnly := by
  intro i s t h
  rw [exec_eq_writing h]
  cases i <;> simp [writing, isCommand]

end Sys2Proof.Machine

/-! ## What a step can do (spec/20_memory.md R56, spec/60_exceptions.md R221, R232)

A step is a reset, a wait, the fault of an illegal word, or an instruction run by one of the agents, on a core that
differs from the one before at its ports only. -/

namespace Sys2Proof.Machine

open Sys2Proof

variable {i : Instr} {s t : State}

/-- The core of `s` with what stands at the ports, the schedule and the handshake inputs of `u`. -/
def State.withPortsOf (s u : State) : State :=
  { s with
    cmdPort := u.cmdPort, evPort := u.evPort, turns := u.turns, txAccepts := u.txAccepts
    holdReport := u.holdReport }

/-- What the step from `s` to `t` was. -/
inductive StepKind (s t : State) : Prop where
  | reset (ts : List Turn) (hturn : s.turns = .reset :: ts) (ht : t = { s with turns := ts }.doReset)
  | wait (u : State) (hf : s.fault = none) (ht : t = s.withPortsOf u)
  | illegalCommand (u : State) (f : FaultRecord) (hf : s.fault = none) (hp : s.phase = .idle)
      (ht : t = { s.withPortsOf u with fault := some f })
  | illegalEvent (u : State) (f : FaultRecord) (ts : List Turn) (hf : s.fault = none) (hturn : s.turns = .input :: ts)
      (ht : t = { s.withPortsOf u with fault := some f })
  | command (u : State) (i : Instr) (hi : isCommand i = true) (h : exec i (s.withPortsOf u) = .next t)
  | event (u : State) (i : Instr) (ts : List Turn) (hturn : s.turns = .input :: ts) (hi : isCommand i = false)
      (hwf : WellFormed s.params.timeWidth i) (h : exec i (s.withPortsOf u) = .next t)

theorem isCommand_of_encode {w : CommandWord} (h : encode i = .command w) : isCommand i = true := by
  cases i with
  | edgeInc | edgeDec | sample => cases h
  | map | set | clear | renderD | renderCur | transmit | service => rfl

theorem isEvent_of_encode {w : EventWord} {now : Time} (h : encode i = .event w now) : isCommand i = false := by
  cases i with
  | edgeInc | edgeDec | sample => rfl
  | map | set | clear | renderD | renderCur | transmit | service => cases h

/-- An event's time operand is the `now` beside its word. -/
theorem wellFormed_of_encode_event {w : EventWord} {now : Time} {timeWidth : Nat} (h : encode i = .event w now)
    (hnow : now < 2 ^ timeWidth) : WellFormed timeWidth i := by
  cases i with
  | edgeInc | edgeDec | sample => cases h; exact decide_eq_true hnow
  | map | set | clear | renderD | renderCur | transmit | service => cases h

theorem isCommand_of_current {p : Phase} (h : p.current = some i) : isCommand i = true := by
  have hc : ∀ c : FrameCmd, isCommand c.instr = true := by
    intro c
    cases c <;> rfl
  cases p <;> cases h
  · exact hc _
  · exact hc _
  · rfl

/-- Taking a command word, the command agent Idle. -/
theorem StepKind.of_command_word {u : State} {w : CommandWord} (hf : s.fault = none) (hp : s.phase = .idle)
    (hfetch : fetch s = runWord (.command w) (s.withPortsOf u)) (h : step s = .next t) : StepKind s t := by
  obtain ⟨j, hd, hrun⟩ | ⟨code, v, -, hrun⟩ := runWord_cases (.command w) (s.withPortsOf u) <;> rw [hrun] at hfetch
  · exact .command u j (isCommand_of_encode (encodeOfDecode _ _ hd)) ((step_of_run hfetch).symm.trans h)
  · have ht := (step_of_done hfetch).symm.trans h
    rw [raiseFault_of_running (by exact hf)] at ht
    cases ht
    exact .illegalCommand u _ hf hp rfl

/-- Taking an event. -/
theorem StepKind.of_event_word {u : State} {w : EventWord} {now : Time} {ts : List Turn} (hf : s.fault = none)
    (hturn : s.turns = .input :: ts) (hnow : now < 2 ^ s.params.timeWidth)
    (hfetch : fetch s = runWord (.event w now) (s.withPortsOf u)) (h : step s = .next t) : StepKind s t := by
  obtain ⟨j, hd, hrun⟩ | ⟨code, v, -, hrun⟩ := runWord_cases (.event w now) (s.withPortsOf u) <;> rw [hrun] at hfetch
  · have henc := encodeOfDecode _ _ hd
    exact .event u j ts hturn (isEvent_of_encode henc) (wellFormed_of_encode_event henc hnow)
      ((step_of_run hfetch).symm.trans h)
  · have ht := (step_of_done hfetch).symm.trans h
    rw [raiseFault_of_running (by exact hf)] at ht
    cases ht
    exact .illegalEvent u _ ts hf hturn rfl

/-- The inversion of `step`. -/
theorem step_kind (h : step s = .next t) : StepKind s t := by
  obtain ⟨ts, hturn, hfetch⟩ | ⟨f, hf, hfetch⟩ | ⟨hf, hturn, hfetch⟩ | ⟨ts, hf, hturn, hfetch⟩ |
    ⟨a, r, ts, hf, hturn, hfetch⟩ := fetch_cases s
  · cases (step_of_done hfetch).symm.trans h
    exact .reset ts hturn rfl
  · simp [step, hfetch] at h
  · cases (step_of_done hfetch).symm.trans h
    exact .wait s hf rfl
  · obtain ⟨-, he⟩ | ⟨e, es, -, he⟩ := fetchEvent_cases { s with turns := ts } <;> rw [he] at hfetch
    · cases (step_of_done hfetch).symm.trans h
      exact .wait { s with turns := ts } hf rfl
    · have hnow := Nat.mod_lt e.count (Nat.two_pow_pos s.params.timeWidth)
      exact .of_event_word (u := { s with turns := ts, evPort := es }) hf hturn hnow hfetch h
  · obtain ⟨j, hcur, he⟩ | ⟨-, -, he⟩ | ⟨w, ws, hp, -, he⟩ :=
      fetchCommand_cases { s with turns := ts, txAccepts := a, holdReport := r } <;> rw [he] at hfetch
    · exact .command { s with turns := ts, txAccepts := a, holdReport := r } j (isCommand_of_current hcur)
        ((step_of_run hfetch).symm.trans h)
    · cases (step_of_done hfetch).symm.trans h
      exact .wait { s with turns := ts, txAccepts := a, holdReport := r } hf rfl
    · exact .of_command_word (u := { s with turns := ts, txAccepts := a, holdReport := r, cmdPort := ws }) hf hp
        hfetch h

end Sys2Proof.Machine

/-! ## Invariants (spec/10_state.md R36, R29, R27, spec/70_reset_and_hazards.md R261)

An invariant of the core looks neither at the ports nor at the fault record, so a step keeps it if a reset and every
instruction do. -/

namespace Sys2Proof.Machine

open Sys2Proof

variable {i : Instr} {s t : State}

/-- The induction step of every invariant of the core. -/
theorem step_keeps {P : State → Prop}
    (hports : ∀ {s} (u : State) (f : Option FaultRecord), P s → P { s.withPortsOf u with fault := f })
    (hreset : ∀ {s : State}, P s → P s.doReset)
    (hexec : ∀ {i} {s t : State}, (isCommand i = false → WellFormed s.params.timeWidth i) → P s → exec i s = .next t →
      P t)
    (h : P s) (hstep : step s = .next t) : P t := by
  obtain ⟨ts, -, rfl⟩ | ⟨u, -, rfl⟩ | ⟨u, f, -, -, rfl⟩ | ⟨u, f, ts, -, -, rfl⟩ | ⟨u, i, hi, hrun⟩ |
    ⟨u, i, ts, -, -, hwf, hrun⟩ := step_kind hstep
  · exact hreset (hports { s with turns := ts } s.fault h)
  · exact hports u s.fault h
  · exact hports u (some f) h
  · exact hports u (some f) h
  · exact hexec (s := s.withPortsOf u) (by simp [hi]) (hports u s.fault h) hrun
  · exact hexec (s := s.withPortsOf u) (fun _ => hwf) (hports u s.fault h) hrun

@[simp] theorem writing_params (i : Instr) (s t : State) : (writing i s t).params = s.params := by
  cases i <;> rfl

/-- Settles O47: it holds; no instruction's frame holds the parameters, and a reset keeps them. -/
theorem stepKeepsParams : Obligations.StepKeepsParams := by
  intro s t hstep
  refine step_keeps (P := fun u => u.params = s.params) (fun _ _ h => h) (fun h => h) (fun _ h hrun => ?_) rfl hstep
  rw [exec_eq_writing hrun, writing_params, h]

/-! ### The digit that a frame shows -/

theorem frameDigit_of_push {k : Fin 75} {c : FrameCmd} (hp : s.phase = .push k c) : s.frameDigit = c.digit := by
  simp [State.frameDigit, hp]

theorem frameDigit_of_holding {c : FrameCmd} (hp : s.phase = .holding c) : s.frameDigit = c.digit := by
  simp [State.frameDigit, hp]

/-- After a byte the command agent is at the next byte of its frame, or in its hold after byte 74. -/
theorem afterByte_cases (k : Fin 75) (c : FrameCmd) :
    (∃ h : k.val + 1 < 75, afterByte k c = .push ⟨k.val + 1, h⟩ c) ∨ (k.val = 74 ∧ afterByte k c = .holding c) := by
  unfold afterByte
  split
  · next h => exact .inl ⟨h, rfl⟩
  · next h => exact .inr ⟨by omega, rfl⟩

/-- The digit shown stays through the bytes of a frame. -/
theorem pushByte_frameDigit {k : Fin 75} {c : FrameCmd} (hp : s.phase = .push k c) :
    (s.pushByte k c).frameDigit = s.frameDigit := by
  obtain ⟨-, h⟩ | ⟨-, h⟩ := pushByte_cases s k c <;> rw [h]
  rw [frameDigit_of_push hp]
  obtain ⟨_, ha⟩ | ⟨-, ha⟩ := afterByte_cases k c
  · exact frameDigit_of_push ha
  · exact frameDigit_of_holding ha

/-- After a hold the digit shown is that of the frame, if a command is still in progress. -/
theorem endHold_frameDigit {c : FrameCmd} {d : Digit} (hp : s.phase = .holding c)
    (hd : (s.endHold c).frameDigit = some d) : s.frameDigit = some d := by
  obtain ⟨-, h⟩ | ⟨-, h⟩ := endHold_cases s c <;> rw [h] at hd
  · rw [frameDigit_of_holding hp]
    cases c with
    | service => exact hd
    | transmit | renderD | renderCur => cases hd
  · exact hd

/-! ### Values in range -/

theorem State.InRange.raiseFault (h : s.InRange) (code : FaultCode) (w : CommandWord) :
    (s.raiseFault code w).InRange := by
  obtain ⟨-, hs⟩ | ⟨-, hs⟩ := raiseFault_cases s code w <;> rw [hs]
  · exact ⟨h.digit, h.result, h.shown, h.times⟩
  · exact h

theorem State.InRange.renderFrame (h : s.InRange) {d : Digit} {c : FrameCmd} (hc : c.digit = some d)
    (hd : d.toNat ≤ 9) : ((s.renderDigit d).startFrame c).InRange where
  digit := h.digit
  result := h.result
  shown d' hd' := by
    cases hc.symm.trans hd'
    exact hd
  times := h.times

theorem State.InRange.pushByte (h : s.InRange) {k : Fin 75} {c : FrameCmd} (hp : s.phase = .push k c) :
    (s.pushByte k c).InRange := by
  have hshown : ∀ d, (s.pushByte k c).frameDigit = some d → d.toNat ≤ 9 := by
    rw [pushByte_frameDigit hp]
    exact h.shown
  obtain ⟨-, hs⟩ | ⟨-, hs⟩ := pushByte_cases s k c <;> rw [hs] at hshown ⊢
  · exact ⟨h.digit, h.result, hshown, h.times⟩
  · exact h

theorem State.InRange.endHold (h : s.InRange) {c : FrameCmd} (hp : s.phase = .holding c) : (s.endHold c).InRange := by
  have hshown : ∀ d, (s.endHold c).frameDigit = some d → d.toNat ≤ 9 := fun d hd => h.shown d (endHold_frameDigit hp hd)
  obtain ⟨-, hs⟩ | ⟨-, hs⟩ := endHold_cases s c <;> rw [hs] at hshown ⊢
  · exact ⟨h.digit, h.result, hshown, h.times⟩
  · exact h

theorem State.InRange.gate (h : s.InRange) (b : Button) {now : Time} (hnow : now < 2 ^ s.params.timeWidth) :
    (s.gate b now).InRange := by
  obtain ⟨-, hs⟩ | ⟨-, hs⟩ := gate_cases s b now <;> rw [hs]
  · refine ⟨pressed_le b s.currentDigit, h.result, h.shown, fun c => ?_⟩
    rw [State.acceptEdge_lastTs, PerButton.get_set]
    split
    · exact hnow
    · exact h.times c
  · exact h

theorem State.InRange.gateIf (h : s.InRange) (e : Bool) (b : Button) {now : Time}
    (hnow : now < 2 ^ s.params.timeWidth) : (s.gateIf e b now).InRange := by
  cases e
  · exact h
  · exact h.gate b hnow

theorem State.InRange.firstStep (h : s.InRange) (i : Instr) : (firstStep i s).InRange := by
  obtain ⟨x, y, -, ht⟩ | ⟨pb, -, ht⟩ | ⟨d, c, hc, hd, -, ht⟩ | ⟨-, ht⟩ | ⟨-, ht⟩ | ⟨w, -, ht⟩ | ht :=
    firstStep_kind i s <;> rw [ht]
  case result =>
    refine ⟨h.digit, fun j hj => ?_, h.shown, h.times⟩
    cases hj
    have := pidx_lt x.toNat y.toNat
    simp only [BitVec.toNat_ofNat]
    omega
  case buffer => exact ⟨h.digit, h.result, h.shown, h.times⟩
  case render => exact h.renderFrame hc (hd.elim id (· ▸ h.digit))
  case transmit | s1 => exact ⟨h.digit, h.result, nofun, h.times⟩
  case fault => exact h.raiseFault _ w
  case nothing => exact h

theorem State.InRange.eventStep (h : s.InRange) (hi : isCommand i = false) (hwf : WellFormed s.params.timeWidth i) :
    (eventStep i s).InRange := by
  cases i with
  | edgeInc now => exact h.gate .inc (of_decide_eq_true hwf)
  | edgeDec now => exact h.gate .dec (of_decide_eq_true hwf)
  | sample x y now =>
    have hnow := of_decide_eq_true hwf
    have hlevels : { s with prevLevel := { inc := some x, dec := some y } }.InRange :=
      ⟨h.digit, h.result, h.shown, h.times⟩
    refine (hlevels.gateIf _ .inc hnow).gateIf _ .dec ?_
    rw [gateIf_frame]
    exact hnow
  | map | set | clear | renderD | renderCur | transmit | service => cases hi

theorem exec_keepsInRange (hwf : isCommand i = false → WellFormed s.params.timeWidth i) (h : s.InRange)
    (hrun : exec i s = .next t) : t.InRange := by
  obtain ⟨-, hstep⟩ := exec_next hrun
  cases hstep with
  | first hi hp ht => exact ht ▸ h.firstStep i
  | push k c hc hp ht => exact ht ▸ h.pushByte hp
  | hold c hc hp ht => exact ht ▸ h.endHold hp
  | s2 o hi hp ht => exact ht ▸ h.renderFrame rfl h.digit
  | s4 o hi hp ht => exact ht ▸ ⟨h.digit, h.result, nofun, h.times⟩
  | wait hi hp ht => exact ht ▸ h
  | event hi ht => exact ht ▸ h.eventStep hi (hwf hi)

theorem initial_inRange (p : Params) : (State.initial p).InRange where
  digit := Nat.zero_le 9
  result := nofun
  shown := nofun
  times b := by cases b <;> exact Nat.two_pow_pos _

/-- Settles O48: it holds; every atomic step keeps the ranges, an event's time being within TIME_WIDTH. -/
theorem stepKeepsInRange : Obligations.StepKeepsInRange := by
  intro s t
  refine step_keeps (fun _ _ h => ⟨h.digit, h.result, h.shown, h.times⟩) (fun {s} _ => ?_) exec_keepsInRange
  have h := initial_inRange s.params
  exact ⟨h.digit, h.result, h.shown, h.times⟩

/-! ### The wire -/

theorem frameBytes_getElem? (pb : PixelBuffer) (k : Fin 75) : (frameBytes pb)[k.val]? = some (frameByte pb k) := by
  simp [frameBytes]

theorem State.OnWire.of_sent_eq_zero (hlog : t.txLog.length = 75 * t.frames) (hsent : t.phase.sent = 0) : t.OnWire := by
  refine ⟨by rw [hsent, hlog, Nat.add_zero], ?_⟩
  rw [hsent, List.take_zero, ← hlog, List.drop_length]

/-- The wire of a state with no frame in progress is a matter of the log's length, whatever the buffer. -/
theorem State.OnWire.congr_of_unsent (h : s.OnWire) (hs : s.phase.sent = 0) (hlog : t.txLog = s.txLog)
    (hframes : t.frames = s.frames) (ht : t.phase.sent = 0) : t.OnWire := by
  refine .of_sent_eq_zero ?_ ht
  rw [hlog, hframes, h.1, hs, Nat.add_zero]

theorem State.OnWire.congr (h : s.OnWire) (hpb : t.pb = s.pb) (hlog : t.txLog = s.txLog)
    (hframes : t.frames = s.frames) (hphase : t.phase = s.phase) : t.OnWire := by
  unfold State.OnWire
  rw [hpb, hlog, hframes, hphase]
  exact h

theorem afterByte_sent (k : Fin 75) (c : FrameCmd) : (afterByte k c).sent = k.val + 1 := by
  obtain ⟨_, ha⟩ | ⟨hk, ha⟩ := afterByte_cases k c <;> rw [ha]
  · rfl
  · rw [hk]; rfl

theorem afterHold_sent (c : FrameCmd) : c.afterHold.sent = 0 := by
  cases c <;> rfl

theorem State.OnWire.pushByte (h : s.OnWire) {k : Fin 75} {c : FrameCmd} (hp : s.phase = .push k c) :
    (s.pushByte k c).OnWire := by
  obtain ⟨-, hs⟩ | ⟨-, hs⟩ := pushByte_cases s k c <;> rw [hs]
  · obtain ⟨hlen, hdrop⟩ := h
    have hsent : s.phase.sent = k.val := by rw [hp]; rfl
    rw [hsent] at hlen hdrop
    unfold State.OnWire
    rw [afterByte_sent]
    refine ⟨by rw [List.length_append, hlen]; rfl, ?_⟩
    rw [List.drop_append_of_le_length (hlen ▸ Nat.le_add_right _ _), hdrop, List.take_add_one, frameBytes_getElem?]
    rfl
  · exact h

theorem State.OnWire.endHold (h : s.OnWire) {c : FrameCmd} (hp : s.phase = .holding c) : (s.endHold c).OnWire := by
  obtain ⟨-, hs⟩ | ⟨-, hs⟩ := endHold_cases s c <;> rw [hs]
  · have hlen := h.1
    rw [hp] at hlen
    exact .of_sent_eq_zero hlen (afterHold_sent c)
  · exact h

theorem State.OnWire.raiseFault (h : s.OnWire) (code : FaultCode) (w : CommandWord) : (s.raiseFault code w).OnWire := by
  obtain ⟨-, hs⟩ | ⟨-, hs⟩ := raiseFault_cases s code w <;> rw [hs] <;> exact h

/-- A first step may write the buffer, since no byte of a frame has been sent. -/
theorem State.OnWire.firstStep (h : s.OnWire) (hp : s.phase = .idle) (i : Instr) : (firstStep i s).OnWire := by
  have hs : s.phase.sent = 0 := by rw [hp]; rfl
  obtain ⟨x, y, -, ht⟩ | ⟨pb, -, ht⟩ | ⟨d, c, -, -, -, ht⟩ | ⟨-, ht⟩ | ⟨-, ht⟩ | ⟨w, -, ht⟩ | ht :=
    firstStep_kind i s <;> rw [ht]
  case fault => exact h.raiseFault _ w
  case result | nothing => exact h
  case buffer => exact h.congr_of_unsent hs rfl rfl hs
  case render | transmit | s1 => exact h.congr_of_unsent hs rfl rfl rfl

theorem State.OnWire.eventStep (h : s.OnWire) (i : Instr) : (eventStep i s).OnWire := by
  rw [eventStep_frame]
  exact h

theorem exec_keepsOnWire (h : s.OnWire) (hrun : exec i s = .next t) : t.OnWire := by
  obtain ⟨-, hstep⟩ := exec_next hrun
  cases hstep with
  | first hi hp ht => exact ht ▸ h.firstStep hp i
  | push k c hc hp ht => exact ht ▸ h.pushByte hp
  | hold c hc hp ht => exact ht ▸ h.endHold hp
  | s2 o hi hp ht => exact ht ▸ h.congr_of_unsent (by rw [hp]; rfl) rfl rfl rfl
  | s4 o hi hp ht => exact ht ▸ h.congr_of_unsent (by rw [hp]; rfl) rfl rfl rfl
  | wait hi hp ht => exact ht ▸ h
  | event hi ht => exact ht ▸ h.eventStep i

/-- Settles O49: it holds; a Push appends the frame's next byte, a Hold counts a frame of which all 75 are out, and the
buffer is written only when no byte of a frame is. -/
theorem stepKeepsOnWire : Obligations.StepKeepsOnWire := fun _ _ =>
  step_keeps (fun _ _ h => h) (fun _ => .of_sent_eq_zero rfl rfl) (fun _ => exec_keepsOnWire)

/-! ### The picture of a frame in progress -/

theorem State.ShowsItsDigit.of_frameDigit_eq_none (h : s.frameDigit = none) : s.ShowsItsDigit := by
  intro d hd
  simp [h] at hd

theorem State.ShowsItsDigit.raiseFault (h : s.ShowsItsDigit) (code : FaultCode) (w : CommandWord) :
    (s.raiseFault code w).ShowsItsDigit := by
  obtain ⟨-, hs⟩ | ⟨-, hs⟩ := raiseFault_cases s code w <;> rw [hs] <;> exact h

theorem State.ShowsItsDigit.pushByte (h : s.ShowsItsDigit) {k : Fin 75} {c : FrameCmd} (hp : s.phase = .push k c) :
    (s.pushByte k c).ShowsItsDigit := by
  intro d hd
  rw [pushByte_frameDigit hp] at hd
  obtain ⟨-, hs⟩ | ⟨-, hs⟩ := pushByte_cases s k c <;> rw [hs] <;> exact h d hd

theorem State.ShowsItsDigit.endHold (h : s.ShowsItsDigit) {c : FrameCmd} (hp : s.phase = .holding c) :
    (s.endHold c).ShowsItsDigit := by
  intro d hd
  have hd := endHold_frameDigit hp hd
  obtain ⟨-, hs⟩ | ⟨-, hs⟩ := endHold_cases s c <;> rw [hs] <;> exact h d hd

/-- A render begins its frame with the picture of the digit the frame shows. -/
theorem renderFrame_showsItsDigit (s : State) {d : Digit} {c : FrameCmd} (hc : c.digit = some d) :
    ((s.renderDigit d).startFrame c).ShowsItsDigit := by
  intro d' hd'
  cases hc.symm.trans hd'
  rfl

theorem State.ShowsItsDigit.firstStep (hp : s.phase = .idle) (i : Instr) : (firstStep i s).ShowsItsDigit := by
  have hnone : s.frameDigit = none := by simp [State.frameDigit, hp]
  obtain ⟨x, y, -, ht⟩ | ⟨pb, -, ht⟩ | ⟨d, c, hc, -, -, ht⟩ | ⟨-, ht⟩ | ⟨-, ht⟩ | ⟨w, -, ht⟩ | ht :=
    firstStep_kind i s <;> rw [ht]
  case render => exact renderFrame_showsItsDigit s hc
  case fault => exact (State.ShowsItsDigit.of_frameDigit_eq_none hnone).raiseFault _ w
  case result | nothing | buffer => exact .of_frameDigit_eq_none hnone
  case transmit | s1 => exact .of_frameDigit_eq_none rfl

theorem State.ShowsItsDigit.eventStep (h : s.ShowsItsDigit) (i : Instr) : (eventStep i s).ShowsItsDigit := by
  rw [eventStep_frame]
  exact h

theorem exec_keepsShowsItsDigit (h : s.ShowsItsDigit) (hrun : exec i s = .next t) : t.ShowsItsDigit := by
  obtain ⟨-, hstep⟩ := exec_next hrun
  cases hstep with
  | first hi hp ht => exact ht ▸ .firstStep hp i
  | push k c hc hp ht => exact ht ▸ h.pushByte hp
  | hold c hc hp ht => exact ht ▸ h.endHold hp
  | s2 o hi hp ht => exact ht ▸ renderFrame_showsItsDigit s rfl
  | s4 o hi hp ht => exact ht ▸ .of_frameDigit_eq_none rfl
  | wait hi hp ht => exact ht ▸ h
  | event hi ht => exact ht ▸ h.eventStep i

/-- Settles O50: it holds; a render begins its frame with its digit's picture, and from there to the frame's end neither
the digit shown nor the buffer moves. -/
theorem stepKeepsShowsItsDigit : Obligations.StepKeepsShowsItsDigit := fun _ _ =>
  step_keeps (fun _ _ h => h) (fun _ => .of_frameDigit_eq_none rfl) (fun _ => exec_keepsShowsItsDigit)

end Sys2Proof.Machine

/-! ## Levels, frames and faults along a step (spec/10_state.md R27, spec/41_pixel_buffer.md R125, spec/60_exceptions.md
R221, R223) -/

namespace Sys2Proof.Machine

open Sys2Proof

variable {i : Instr} {s t : State}

/-- A step that is no reset changes the ports, records a fault, or runs an instruction. -/
theorem step_of_no_reset (hno : ∀ ts, s.turns ≠ .reset :: ts) (hstep : step s = .next t) :
    (∃ u f, t = { s.withPortsOf u with fault := f }) ∨ ∃ u i, exec i (s.withPortsOf u) = .next t := by
  obtain ⟨ts, hturn, -⟩ | ⟨u, -, rfl⟩ | ⟨u, f, -, -, rfl⟩ | ⟨u, f, ts, -, -, rfl⟩ | ⟨u, i, -, hrun⟩ |
    ⟨u, i, ts, -, -, -, hrun⟩ := step_kind hstep
  · exact absurd hturn (hno ts)
  · exact .inl ⟨u, s.fault, rfl⟩
  · exact .inl ⟨u, some f, rfl⟩
  · exact .inl ⟨u, some f, rfl⟩
  · exact .inr ⟨u, i, hrun⟩
  · exact .inr ⟨u, i, hrun⟩

/-! ### The kept levels -/

theorem sampleStep_prevLevel (x y : Level) (now : Time) (s : State) :
    (sampleStep x y now s).prevLevel = { inc := some x, dec := some y } := by
  rw [sampleStep, gateIf_frame, gateIf_frame]

/-- A SAMPLE sets both levels, and no other instruction writes them. -/
theorem exec_prevLevel (hrun : exec i s = .next t) :
    (∃ x y now, i = .sample x y now ∧ t.prevLevel = { inc := some x, dec := some y }) ∨
      ((∀ x y now, i ≠ .sample x y now) ∧ t.prevLevel = s.prevLevel) := by
  cases i with
  | sample x y now =>
    obtain ⟨-, rfl⟩ := runEvent_next hrun
    exact .inl ⟨x, y, now, rfl, sampleStep_prevLevel x y now s⟩
  | map | set | clear | renderD | renderCur | transmit | service | edgeInc | edgeDec =>
    exact .inr ⟨nofun, (congrArg State.prevLevel (exec_eq_writing hrun) :)⟩

theorem PerButton.get_pair_ne_none (x y : Level) (b : Button) :
    ({ inc := some x, dec := some y } : PerButton (Option Level)).get b ≠ none := by
  cases b <;> simp

theorem exec_keeps_set_level {b : Button} (hset : s.prevLevel.get b ≠ none) (hrun : exec i s = .next t) :
    t.prevLevel.get b ≠ none := by
  obtain ⟨x, y, now, -, ht⟩ | ⟨-, ht⟩ := exec_prevLevel hrun <;> rw [ht]
  · exact PerButton.get_pair_ne_none x y b
  · exact hset

theorem exec_keepsUnsetOnlyFirst (h : s.UnsetOnlyFirst) (hrun : exec i s = .next t) : t.UnsetOnlyFirst := by
  have hparams : t.params = s.params := by rw [exec_eq_writing hrun, writing_params]
  obtain ⟨x, y, now, -, ht⟩ | ⟨-, ht⟩ := exec_prevLevel hrun
  · refine ⟨fun _ b => ?_, by simp [ht]⟩
    rw [ht]
    exact PerButton.get_pair_ne_none x y b
  · unfold State.UnsetOnlyFirst
    rw [hparams, ht]
    exact h

theorem initial_unsetOnlyFirst (p : Params) : (State.initial p).UnsetOnlyFirst := by
  refine ⟨fun (hp : p.edgeInit = .idleHigh) b => ?_, Iff.rfl⟩
  cases b <;> simp [State.initial, hp, resetLevel]

/-- Settles O51: it holds; a SAMPLE sets both levels together, and of all other steps only a reset writes them. -/
theorem stepKeepsUnsetOnlyFirst : Obligations.StepKeepsUnsetOnlyFirst := by
  refine ⟨fun s t => ?_, fun s t b hno hstep hset => ?_, fun i s t hrun => ?_⟩
  · exact step_keeps (fun _ _ h => h) (fun {s} _ => initial_unsetOnlyFirst s.params) (fun _ => exec_keepsUnsetOnlyFirst)
  · obtain ⟨u, f, rfl⟩ | ⟨u, i, hrun⟩ := step_of_no_reset hno hstep
    · exact hset
    · exact exec_keeps_set_level (by exact hset) hrun
  · obtain ⟨x, y, now, rfl, ht⟩ | ⟨hne, ht⟩ := exec_prevLevel hrun
    · refine ⟨fun _ _ _ _ b => ?_, fun hne => absurd rfl (hne x y now)⟩
      rw [ht]
      exact PerButton.get_pair_ne_none x y b
    · exact ⟨fun x y now hi => absurd hi (hne x y now), fun _ => ht⟩

/-! ### The start of a run -/

theorem config_params_legal : Config.params.Legal where
  timeWidth := Nat.le_add_right _ _
  holdUs := Nat.le_add_right _ _
  glyphZero := by
    have h : Config.params.glyphs[0] = Config.withSeventeenLit Config.freeGlyphs[0] := by simp [Config.params]
    rw [h, Config.litCells_withSeventeenLit]
  colourZero := by simp [Config.params]

/-- Settles O53: it holds; the start of a run is the reset state with words, events and turns presented. -/
theorem invariantsHoldAtStart : Obligations.InvariantsHoldAtStart := by
  refine ⟨fun p cmds evs turns => ⟨?_, ?_, ?_, ?_, fun hcmds hevs => ⟨rfl, hcmds, hevs⟩⟩, rfl, config_params_legal⟩
  · have h := initial_inRange p
    exact ⟨h.digit, h.result, h.shown, h.times⟩
  · exact .of_sent_eq_zero rfl rfl
  · exact .of_frameDigit_eq_none rfl
  · exact initial_unsetOnlyFirst p

/-! ### The buffer of a frame in progress -/

theorem pushByte_pb (s : State) (k : Fin 75) (c : FrameCmd) : (s.pushByte k c).pb = s.pb := by
  obtain ⟨-, h⟩ | ⟨-, h⟩ := pushByte_cases s k c <;> rw [h]

theorem endHold_pb (s : State) (c : FrameCmd) : (s.endHold c).pb = s.pb := by
  obtain ⟨-, h⟩ | ⟨-, h⟩ := endHold_cases s c <;> rw [h]

/-- The buffer is written in a command's first step or in SERVICE's S2, neither of which falls in a frame. -/
theorem exec_pb (hidle : s.phase ≠ .idle) (hs2 : ∀ o, s.phase ≠ .serve .s2 o) (hrun : exec i s = .next t) :
    t.pb = s.pb := by
  obtain ⟨-, hstep⟩ := exec_next hrun
  cases hstep with
  | first hi hp ht => exact absurd hp hidle
  | push k c hc hp ht => rw [ht, pushByte_pb]
  | hold c hc hp ht => rw [ht, endHold_pb]
  | s2 o hi hp ht => exact absurd hp (hs2 o)
  | s4 o hi hp ht => rw [ht]; rfl
  | wait hi hp ht => rw [ht]
  | event hi ht => rw [ht, eventStep_frame]

/-- Settles O37: it holds; no atomic step that a frame's phase allows writes the buffer. -/
theorem bufferFixedDuringFrame : Obligations.BufferFixedDuringFrame := by
  intro s t hno hframe hstep
  have hidle : s.phase ≠ .idle := by
    obtain ⟨c, hp | ⟨k, hp⟩⟩ := hframe <;> simp [hp]
  have hs2 : ∀ o, s.phase ≠ .serve .s2 o := by
    obtain ⟨c, hp | ⟨k, hp⟩⟩ := hframe <;> simp [hp]
  obtain ⟨u, f, rfl⟩ | ⟨u, i, hrun⟩ := step_of_no_reset hno hstep
  · rfl
  · exact exec_pb (s := s.withPortsOf u) hidle hs2 hrun

/-! ### Faults -/

/-- Settles O38: it holds; the record is written once, and every meaning and every fetch but a reset's looks at it
first. -/
theorem faultStopsBothAgents : Obligations.FaultStopsBothAgents := by
  refine ⟨fun s code w hf => raiseFault_of_running hf, fun s f hf => ⟨fun code w => ?_, fun i => exec_of_fault i hf,
    fun hno => ?_, fun ts hturn => ⟨_, step_of_reset hturn, rfl⟩, fun ⟨_, _, hnone⟩ => ?_⟩⟩
  · obtain ⟨hnone, -⟩ | ⟨-, h⟩ := raiseFault_cases s code w
    · simp [hf] at hnone
    · exact h
  · obtain ⟨ts, hturn, -⟩ | ⟨f', hf', hfetch⟩ | ⟨hnone, -⟩ | ⟨ts, hnone, -⟩ | ⟨a, r, ts, hnone, -⟩ := fetch_cases s
    case inl => exact absurd hturn (hno ts)
    case inr.inl =>
      cases hf.symm.trans hf'
      simp [step, hfetch]
    all_goals simp [hf] at hnone
  · simp [hf] at hnone

theorem pushByte_fault (s : State) (k : Fin 75) (c : FrameCmd) : (s.pushByte k c).fault = s.fault := by
  obtain ⟨-, h⟩ | ⟨-, h⟩ := pushByte_cases s k c <;> rw [h]

theorem endHold_fault (s : State) (c : FrameCmd) : (s.endHold c).fault = s.fault := by
  obtain ⟨-, h⟩ | ⟨-, h⟩ := endHold_cases s c <;> rw [h]

/-- A first step that changes the fault record changes nothing else. -/
theorem firstStep_fault (i : Instr) (s : State) :
    (firstStep i s).fault = s.fault ∨ firstStep i s = { s with fault := (firstStep i s).fault } := by
  obtain ⟨x, y, -, ht⟩ | ⟨pb, -, ht⟩ | ⟨d, c, -, -, -, ht⟩ | ⟨-, ht⟩ | ⟨-, ht⟩ | ⟨w, -, ht⟩ | ht :=
    firstStep_kind i s <;> rw [ht]
  case fault => obtain ⟨-, h⟩ | ⟨-, h⟩ := raiseFault_cases s .operandRange w <;> rw [h] <;> exact .inr rfl
  all_goals exact .inl rfl

/-- An instruction that changes the fault record is a command at its first step, and changes nothing else. -/
theorem exec_fault (hrun : exec i s = .next t) :
    t.fault = s.fault ∨ (t = { s with fault := t.fault } ∧ isCommand i = true ∧ s.phase = .idle) := by
  obtain ⟨-, hstep⟩ := exec_next hrun
  cases hstep with
  | first hi hp ht => exact ht ▸ (firstStep_fault i s).imp_right fun h => ⟨h, hi, hp⟩
  | push k c hc hp ht => exact .inl (ht ▸ pushByte_fault s k c)
  | hold c hc hp ht => exact .inl (ht ▸ endHold_fault s c)
  | s2 o hi hp ht => exact .inl (ht ▸ rfl)
  | s4 o hi hp ht => exact .inl (ht ▸ rfl)
  | wait hi hp ht => exact .inl (ht ▸ rfl)
  | event hi ht => exact .inl (by rw [ht, eventStep_frame])

/-- An instruction that raises a fault is a command at its first step, and writes the record only. -/
theorem exec_raises {f : FaultRecord} (hf : s.fault = none) (ht : t.fault = some f) (hrun : exec i s = .next t) :
    t = { s with fault := some f } ∧ isCommand i = true ∧ s.phase = .idle := by
  obtain h | h := exec_fault hrun
  · simp [hf, ht] at h
  · rwa [ht] at h

/-- Settles O39: it holds; a fault is raised by a command's first step or by taking an illegal word, and both write the
record only. -/
theorem faultsArePrecise : Obligations.FaultsArePrecise := by
  intro s t f hf ht
  refine ⟨fun i hrun => ?_, fun hstep => ?_⟩
  · obtain ⟨heq, -, hp⟩ := exec_raises hf ht hrun
    exact ⟨heq, fun _ => hp⟩
  obtain ⟨ts, -, rfl⟩ | ⟨u, -, rfl⟩ | ⟨u, f', -, hp, rfl⟩ | ⟨u, f', ts, -, hturn, rfl⟩ | ⟨u, i, -, hrun⟩ |
    ⟨u, i, ts, hturn, hi, -, hrun⟩ := step_kind hstep
  · cases ht
  · cases hf.symm.trans ht
  · cases ht
    exact ⟨rfl, fun _ _ _ _ => hp⟩
  · cases ht
    exact ⟨rfl, fun a r ts hturn' => by simp [hturn] at hturn'⟩
  · obtain ⟨heq, -, hp⟩ := exec_raises (by exact hf) ht hrun
    exact ⟨by rw [heq]; rfl, fun _ _ _ _ => hp⟩
  · obtain ⟨-, hc, -⟩ := exec_raises (by exact hf) ht hrun
    simp [hi] at hc

/-! ### An event in the middle of a command -/

/-- Settles O44: it holds; an event's step, or the fault of an illegal event, writes nothing of the command agent's. -/
theorem inputAgentNeverBlocked : Obligations.InputAgentNeverBlocked := by
  intro s ts e es hf hturn hev
  have hfetch := (fetch_of_input hf hturn).trans (fetchEvent_of_event (by exact hev))
  obtain ⟨i, hd, hrun⟩ | ⟨code, w, -, hrun⟩ := runWord_cases
      (.event e.word (nowOfCount s.params.timeWidth e.count)) { s with turns := ts, evPort := es }
  · have hi := isEvent_of_encode (encodeOfDecode _ _ hd)
    refine ⟨_, (step_of_run (hfetch.trans hrun)).trans (exec_event hi hf), ?_⟩
    rw [eventStep_frame]
    exact ⟨rfl, rfl, rfl, rfl, rfl, rfl, rfl⟩
  · rw [raiseFault_of_running (by exact hf)] at hrun
    exact ⟨_, step_of_done (hfetch.trans hrun), rfl, rfl, rfl, rfl, rfl, rfl, rfl⟩

end Sys2Proof.Machine

/-! ## One step of a command (spec/40_mapper.md R101, spec/41_pixel_buffer.md R120 to R131, spec/43_sequencer.md
R190) -/

namespace Sys2Proof.Machine

open Sys2Proof

variable {i : Instr} {s t : State}

/-! ### The mapper and MAP -/

/-- Settles O7, by evaluating the mapper and its inverse on the 25 positions. -/
theorem mapperBijective : Obligations.MapperBijective := by
  refine ⟨fun x hx y hy => ⟨pidx_lt x y, pinv_pidx (by omega) (by omega)⟩, ?_, ?_⟩ <;> decide

theorem faultWord_map (x y : Coord) : faultWord (.map x y) = BitVec.ofNat 32 (0x20000000 + y.toNat * 8 + x.toNat) := by
  rw [faultWord, encode_map]

theorem faultWord_set (index : Index) (r g b : Byte) :
    faultWord (.set index r g b) =
      BitVec.ofNat 32 (0x40000000 + index.toNat * 16777216 + r.toNat * 65536 + g.toNat * 256 + b.toNat) := by
  rw [faultWord, encode_set]

theorem faultWord_renderD (d : Digit) : faultWord (.renderD d) = BitVec.ofNat 32 (0x80000000 + d.toNat) := by
  rw [faultWord, encode_renderD]

theorem coordsLegal_iff (x y : Coord) : coordsLegal x y = true ↔ x.toNat ≤ 4 ∧ y.toNat ≤ 4 := by
  simp [coordsLegal]

/-- Settles O6: it holds, by the two branches of MAP's first step. -/
theorem mapResult : Obligations.MapResult := by
  intro x y s hs
  rw [exec_of_ready rfl hs, firstStep]
  obtain ⟨hlegal, h⟩ | ⟨hlegal, h⟩ := mapStep_cases x y s
  · rw [if_pos ((coordsLegal_iff x y).mp hlegal), h]
    rfl
  · rw [if_neg (by rw [← coordsLegal_iff, hlegal]; simp), h, raiseFault_of_running hs.noFault, faultWord_map]

/-! ### SET, CLEAR and TRANSMIT -/

theorem pixelOf_eq (r g b : Byte) :
    pixelOf r g b = BitVec.ofNat 24 (r.toNat * 65536 + g.toNat * 256 + b.toNat) := by
  refine eq_ofNat_of_toNat_eq (n := 8 + 8 + 8) ?_
  rw [pixelOf, toNat_append_eq_add, toNat_append_eq_add]
  omega

/-- Settles O8: it holds, by the two branches of SET's first step. -/
theorem setResult : Obligations.SetResult := by
  intro index r g b s hs
  rw [exec_of_ready rfl hs, firstStep]
  obtain ⟨hlegal, h⟩ | ⟨hlegal, h⟩ := setStep_cases index r g b s <;> rw [h]
  · have hindex : index.toNat ≤ 24 := of_decide_eq_true hlegal
    refine ⟨fun _ => ⟨_, rfl, ?_, fun j hj => ?_⟩, fun hgt => absurd hindex (by omega)⟩
    · rw [Vector.getElem?_setIfInBounds_self_of_lt (by omega), pixelOf_eq]
    · exact Vector.getElem?_setIfInBounds_ne hj.symm
  · have hindex : ¬ index.toNat ≤ 24 := of_decide_eq_false hlegal
    refine ⟨fun hle => absurd hle hindex, fun _ => ?_⟩
    rw [raiseFault_of_running hs.noFault, faultWord_set]

/-- Settles O9: it holds; CLEAR's first step is its only one. -/
theorem clearResult : Obligations.ClearResult := by
  intro s hs
  exact ⟨blackBuffer, exec_of_ready rfl hs, fun i hi => by simp [blackBuffer, hi]⟩

/-- Settles O10: it holds; TRANSMIT's first step begins the frame. -/
theorem transmitStart : Obligations.TransmitStart := by
  intro s hs
  exact exec_of_ready rfl hs

/-! ### The frame -/

theorem field_eq_ofNat {n : Nat} (w : BitVec n) (lo len : Nat) :
    field w lo len = BitVec.ofNat len (w.toNat / 2 ^ lo) := by
  rw [field_eq_iff, BitVec.toNat_ofNat]

/-- A byte of the frame is its channel of its Pixel, as a number. -/
theorem frameByte_eq {pb : PixelBuffer} {k : Fin 75} {p : Pixel} (hp : pb[k.val / 3]? = some p) :
    frameByte pb k =
      BitVec.ofNat 8 (if k.val % 3 = 0 then p.toNat / 256 else if k.val % 3 = 1 then p.toNat / 65536 else p.toNat) := by
  have hgreen : green p = BitVec.ofNat 8 (p.toNat / 256) := field_eq_ofNat p 8 8
  have hred : red p = BitVec.ofNat 8 (p.toNat / 65536) := field_eq_ofNat p 16 8
  have hblue : blue p = BitVec.ofNat 8 p.toNat := by
    rw [← Nat.div_one p.toNat]
    exact field_eq_ofNat p 0 8
  obtain ⟨_, hp⟩ := Vector.getElem?_eq_some_iff.mp hp
  simp only [frameByte, hp, hgreen, hred, hblue]
  split_ifs <;> rfl

/-- Settles O11: it holds, by the two branches of the Push step. -/
theorem pushSendsByte : Obligations.PushSendsByte := by
  intro s c k p hf hp hpix
  rw [exec_push c k hf hp]
  obtain ⟨ha, h⟩ | ⟨ha, h⟩ := pushByte_cases s k c <;> rw [h, ha]
  · have hnext : afterByte k c = if h : k.val < 74 then .push ⟨k.val + 1, by omega⟩ c else .holding c := by
      simp only [afterByte, Nat.add_lt_add_iff_right (m := 74) (k := 1)]
    rw [frameByte_eq hpix, hnext]
    rfl
  · rfl

/-- Settles O12: it holds, by the two branches of the Hold step. -/
theorem holdEndsFrame : Obligations.HoldEndsFrame := by
  intro s c hf hp
  rw [exec_hold c hf hp]
  obtain ⟨hdone, h⟩ | ⟨hdone, h⟩ := endHold_cases s c <;> rw [h]
  · obtain ⟨us, hr, hus⟩ := (holdDone_iff s).mp hdone
    exact ⟨fun _ => by cases c <;> rfl, fun hearly => absurd (hearly us hr) (by omega)⟩
  · exact ⟨fun hlate => by simp [(holdDone_iff s).mpr hlate] at hdone, fun _ => rfl⟩

/-! ### RENDER -/

theorem glyphOf_eq {p : Params} {d : Digit} {g : Glyph} (h : p.glyphs[d.toNat]? = some g) : glyphOf p d = g := by
  obtain ⟨hlt, hg⟩ := Vector.getElem?_eq_some_iff.mp h
  rw [glyphOf, dif_pos hlt, hg]

theorem colourOf_eq {p : Params} {d : Digit} {c : Pixel} (h : p.colours[d.toNat]? = some c) : colourOf p d = c := by
  obtain ⟨hlt, hc⟩ := Vector.getElem?_eq_some_iff.mp h
  rw [colourOf, dif_pos hlt, hc]

/-- The picture of a digit with a table entry shows its glyph in its colour. -/
theorem showsGlyph_picture {p : Params} {d : Digit} {g : Glyph} {c : Pixel} (hg : p.glyphs[d.toNat]? = some g)
    (hc : p.colours[d.toNat]? = some c) : ShowsGlyph g c (picture p d) := by
  rw [picture, glyphOf_eq hg, colourOf_eq hc]
  exact showsGlyph_paint g c

/-- Settles O14: it holds, by the two branches of RENDER d's first step. -/
theorem renderDigitFirstStep : Obligations.RenderDigitFirstStep := by
  intro d s hs
  refine ⟨fun g c hg hc => ⟨picture s.params d, showsGlyph_picture hg hc, exec_renderD_of_ready hs ?_⟩, fun hd => ?_⟩
  · obtain ⟨hlt, -⟩ := Vector.getElem?_eq_some_iff.mp hg
    omega
  · obtain ⟨hlegal, -⟩ | ⟨-, h⟩ := renderStep_cases d s
    · exact absurd (of_decide_eq_true hlegal) (by omega)
    · rw [exec_of_ready rfl hs, firstStep, h, raiseFault_of_running hs.noFault, faultWord_renderD]

/-- Settles O15: it holds; RENDER cur's first step leaves the picture of the current digit. -/
theorem renderCurrentFirstStep : Obligations.RenderCurrentFirstStep := by
  intro s g c hs hg hc
  exact ⟨picture s.params s.currentDigit, showsGlyph_picture hg hc, exec_of_ready rfl hs⟩

/-- Settles O16: it holds, the closed form over the cells being read at the cell of an LED. -/
theorem renderClosedForm : Obligations.RenderClosedForm := by
  intro s q d g c i hi hg hc
  obtain ⟨-, hinv, -⟩ := mapperBijective
  obtain ⟨hx, hy, hcell⟩ := hinv i hi
  refine ⟨?_, rfl⟩
  have h := showsGlyph_picture hg hc (pinv i).1 (pinv i).2 (by omega) (by omega)
  rwa [hcell] at h

/-! ### SERVICE -/

/-- Settles O20: it holds; S1 is SERVICE's first step. -/
theorem serviceReadsFlag : Obligations.ServiceReadsFlag := fun _ hs => exec_of_ready rfl hs

/-- Settles O21: it holds; S2 leaves the picture of the current digit. -/
theorem servicePaintsDigit : Obligations.ServicePaintsDigit := by
  intro s o g c hf hp hg hc
  exact ⟨picture s.params s.currentDigit, showsGlyph_picture hg hc, exec_service_of_s2 hf hp⟩

/-- Settles O22: it holds; S4 clears the flag and ends the command. -/
theorem serviceClearsFlag : Obligations.ServiceClearsFlag := fun _ _ hf hp => execService_of_s4 hf hp

/-! ### Commands beside one another, and beside the input agent -/

/-- Settles O36: it holds; each step but the wait is one of the command in progress. -/
theorem otherCommandsWait : Obligations.OtherCommandsWait := by
  intro i j s hi hf hcur hne
  rw [exec_command hi hf]
  obtain ⟨-, hp, -⟩ | ⟨k, c, hc, hp, -⟩ | ⟨c, hc, hp, -⟩ | ⟨o, hi', hp, -⟩ | ⟨o, hi', hp, -⟩ | ⟨-, -, ht⟩ | ⟨hi', -⟩ :=
    commandStep_execStep hi s
  case wait => rw [ht]
  case event => simp [hi] at hi'
  all_goals rw [hp] at hcur; cases hcur
  case push | hold => exact absurd hc.symm hne
  case s2 | s4 => exact absurd hi' hne

/-- The state with the timestamps and the kept levels of another state. -/
def State.withInputStateOf (s u : State) : State :=
  { s with lastTs := u.lastTs, prevLevel := u.prevLevel }

theorem raiseFault_withInputStateOf (s u : State) (code : FaultCode) (w : CommandWord) :
    (s.withInputStateOf u).raiseFault code w = (s.raiseFault code w).withInputStateOf u := by
  cases h : s.fault <;> simp [State.raiseFault, State.withInputStateOf, h]

theorem pushByte_withInputStateOf (s u : State) (k : Fin 75) (c : FrameCmd) :
    (s.withInputStateOf u).pushByte k c = (s.pushByte k c).withInputStateOf u := by
  cases h : s.txAccepts <;> simp [State.pushByte, State.withInputStateOf, h]

theorem endHold_withInputStateOf (s u : State) (c : FrameCmd) :
    (s.withInputStateOf u).endHold c = (s.endHold c).withInputStateOf u := by
  have hdone : (s.withInputStateOf u).holdDone = s.holdDone := rfl
  simp only [State.endHold, hdone]
  split <;> rfl

/-- The first step of a command neither reads nor writes the input agent's state. -/
theorem firstStep_withInputStateOf (i : Instr) (s u : State) :
    firstStep i (s.withInputStateOf u) = (firstStep i s).withInputStateOf u := by
  cases i with
  | map x y =>
    simp only [firstStep, mapStep]
    split
    · rfl
    · exact raiseFault_withInputStateOf s u _ _
  | set index r g b =>
    simp only [firstStep, setStep]
    split
    · rfl
    · exact raiseFault_withInputStateOf s u _ _
  | renderD d =>
    simp only [firstStep, renderStep]
    split
    · rfl
    · exact raiseFault_withInputStateOf s u _ _
  | service =>
    have hflag : (s.withInputStateOf u).redrawPending = s.redrawPending := rfl
    simp only [firstStep, serviceS1, hflag]
    split <;> rfl
  | clear | renderCur | transmit | edgeInc | edgeDec | sample => rfl

/-- No step of a command reads or writes the input agent's state. -/
theorem commandStep_withInputStateOf (i : Instr) (s u : State) :
    commandStep i (s.withInputStateOf u) = (commandStep i s).withInputStateOf u := by
  have hphase : (s.withInputStateOf u).phase = s.phase := rfl
  cases hp : s.phase with
  | idle => rw [commandStep_of_idle hp, commandStep_of_idle (hphase.trans hp), firstStep_withInputStateOf]
  | push k c =>
    rw [commandStep_of_push hp, commandStep_of_push (hphase.trans hp), pushByte_withInputStateOf]
    split <;> rfl
  | holding c =>
    rw [commandStep_of_holding hp, commandStep_of_holding (hphase.trans hp), endHold_withInputStateOf]
    split <;> rfl
  | serve st o =>
    cases st with
    | s2 =>
      rw [commandStep_of_s2 hp, commandStep_of_s2 (hphase.trans hp)]
      split <;> rfl
    | s4 =>
      rw [commandStep_of_s4 hp, commandStep_of_s4 (hphase.trans hp)]
      split <;> rfl

theorem isCommand_edgeOf (b : Button) (now : Time) : isCommand (edgeOf b now) = false := by
  cases b <;> rfl

/-- Settles O33: it holds; a command's step commutes with a change of the input agent's state, and of the flag's two
writers only SERVICE's S4 is a command's. -/
theorem commandsIgnoreInputState : Obligations.CommandsIgnoreInputState := by
  intro i s hi hf
  have hrun := exec_command hi hf
  refine ⟨commandStep i s, hrun, ?_, fun hne => ?_, fun ts ls => ?_⟩
  · rw [exec_eq_writing hrun]
    cases i with
    | map | set | clear | renderD | renderCur | transmit | service => rfl
    | edgeInc | edgeDec | sample => cases hi
  · obtain ⟨-, b, now, rfl | ⟨x, y, rfl, -⟩, -⟩ | ⟨-, h⟩ := exec_changes_redrawPending hrun hne
    · simp [isCommand_edgeOf] at hi
    · cases hi
    · exact h
  · have hrun' := exec_command hi (s := s.withInputStateOf { s with lastTs := ts, prevLevel := ls }) hf
    rwa [commandStep_withInputStateOf] at hrun'

end Sys2Proof.Machine

/-! ## EDGE, SAMPLE and the gate (spec/42_input.md R161 to R172) -/

namespace Sys2Proof.Machine

open Sys2Proof

variable {i : Instr} {s t : State}

/-! ### The gate by the condition of R161 -/

theorem gate_of_accepts {b : Button} {now : Time} (h : s.Accepts b now) : s.gate b now = s.acceptEdge b now :=
  gate_of_open ((gateOpen_iff_accepts s b now).mpr h)

theorem gate_of_not_accepts {b : Button} {now : Time} (h : ¬ s.Accepts b now) : s.gate b now = s :=
  if_neg (mt (gateOpen_iff_accepts s b now).mp h)

/-- The gate of a button is not moved by the other button's. -/
theorem accepts_gate_iff {b c : Button} (hne : c ≠ b) (now now' : Time) :
    (s.gate b now).Accepts c now' ↔ s.Accepts c now' := by
  rw [← gateOpen_iff_accepts, gateOpen_gate_of_ne s hne, gateOpen_iff_accepts]

/-- Settles O26: it holds, by the two branches of the gate for each button. -/
theorem edgeThroughGate : Obligations.EdgeThroughGate := by
  intro s now hf
  have hedge (b : Button) : exec (edgeOf b now) s =
      if s.Accepts b now then .next (s.acceptEdge b now) else .next s := by
    rw [exec_edgeOf b now hf]
    split
    · next h => rw [gate_of_accepts h]
    · next h => rw [gate_of_not_accepts h]
  exact ⟨hedge .inc, hedge .dec⟩

/-! ### SAMPLE -/

/-- The state with the levels of a SAMPLE kept. -/
def State.withLevels (s : State) (x y : Level) : State :=
  { s with prevLevel := { inc := some x, dec := some y } }

theorem gateIf_falling {b : Button} {level : Level} {now : Time} {u : State}
    (hopen : u.gateOpen b now = s.gateOpen b now) :
    u.gateIf (falling (s.prevLevel.get b) level) b now =
      if s.Falls b level ∧ s.Accepts b now then u.acceptEdge b now else u := by
  rw [State.gateIf, State.gate, hopen]
  simp only [falling_iff_falls, gateOpen_iff_accepts]
  split_ifs <;> simp_all

/-- SAMPLE's one step by R168 and R161: each edge of a line that falls and whose gate, in the state before, is open is
accepted. -/
theorem sampleStep_eq (x y : Level) (now : Time) (s : State) :
    sampleStep x y now s =
      let up := if s.Falls .inc x ∧ s.Accepts .inc now then (s.withLevels x y).acceptEdge .inc now else s.withLevels x y
      if s.Falls .dec y ∧ s.Accepts .dec now then up.acceptEdge .dec now else up := by
  have hgates : sampleStep x y now s =
      ((s.withLevels x y).gateIf (falling (s.prevLevel.get .inc) x) .inc now).gateIf
        (falling (s.prevLevel.get .dec) y) .dec now := rfl
  have hinc : (s.withLevels x y).gateOpen .inc now = s.gateOpen .inc now := rfl
  have hdec (e : Bool) : ((s.withLevels x y).gateIf e .inc now).gateOpen .dec now = s.gateOpen .dec now :=
    gateOpen_gateIf_of_ne _ e (by decide) now now
  rw [hgates, gateIf_falling (hdec _), gateIf_falling hinc]

theorem exec_sample (x y : Level) (now : Time) (hf : s.fault = none) :
    exec (.sample x y now) s = .next (sampleStep x y now s) :=
  exec_event rfl hf

/-- Settles O27: it holds, each of the two edges being accepted or not. -/
theorem sampleResult : Obligations.SampleResult := by
  intro s a b now hf
  rw [exec_sample a b now hf, sampleStep_eq]
  have hmod : (s.currentDigit.toNat + 1) % 10 % 16 = (s.currentDigit.toNat + 1) % 10 := by omega
  by_cases hup : s.Falls .inc a ∧ s.Accepts .inc now <;> by_cases hdown : s.Falls .dec b ∧ s.Accepts .dec now
  · simp only [if_pos hup, if_pos hdown, decide_eq_true (Or.inl hup)]
    simp [State.acceptEdge, State.setRedraw, State.withLevels, pressed, hmod]
  · simp only [if_pos hup, if_neg hdown, decide_eq_true (Or.inl hup)]
    simp [State.acceptEdge, State.setRedraw, State.withLevels, pressed]
  · simp only [if_neg hup, if_pos hdown, decide_eq_true (Or.inr hdown)]
    simp [State.acceptEdge, State.setRedraw, State.withLevels, pressed]
  · simp only [if_neg hup, if_neg hdown, decide_eq_false (not_or.mpr ⟨hup, hdown⟩)]
    simp [State.withLevels]

/-! ### The two gates of one SAMPLE (R172) -/

theorem pressed_otherButton_pressed (b : Button) {d : Digit} (hd : d.toNat ≤ 9) :
    pressed (otherButton b) (pressed b d) = d := by
  have h : ∀ d : Digit, d.toNat ≤ 9 → pressed .dec (pressed .inc d) = d ∧ pressed .inc (pressed .dec d) = d := by decide
  cases b
  · exact (h d hd).1
  · exact (h d hd).2

/-- Two accepted edges, one of each button, leave the digit as it was. -/
theorem acceptEdge_acceptEdge {b c : Button} (hne : c ≠ b) (hd : s.currentDigit.toNat ≤ 9) (now : Time) :
    (s.acceptEdge b now).acceptEdge c now =
      { s with redrawPending := true, lastTs := { inc := now, dec := now } } := by
  have hdigit := pressed_otherButton_pressed b hd
  cases b <;> cases c
  case inc.inc | dec.dec => exact absurd rfl hne
  all_goals simpa [State.acceptEdge, State.setRedraw, otherButton] using hdigit

theorem gate_gate {b c : Button} (hne : c ≠ b) (now : Time) :
    (s.gate b now).gate c now =
      if s.Accepts c now then (s.gate b now).acceptEdge c now else s.gate b now := by
  split
  · next h => rw [gate_of_accepts ((accepts_gate_iff hne now now).mpr h)]
  · next h => rw [gate_of_not_accepts (mt (accepts_gate_iff hne now now).mp h)]

/-- The order of the two gates cannot be observed. -/
theorem gate_comm (hd : s.currentDigit.toNat ≤ 9) (now : Time) :
    (s.gate .inc now).gate .dec now = (s.gate .dec now).gate .inc now := by
  have hne : Button.dec ≠ .inc := by decide
  rw [gate_gate hne, gate_gate hne.symm]
  by_cases hinc : s.Accepts .inc now <;> by_cases hdec : s.Accepts .dec now
  · rw [if_pos hinc, if_pos hdec, gate_of_accepts hinc, gate_of_accepts hdec, acceptEdge_acceptEdge hne hd,
      acceptEdge_acceptEdge hne.symm hd]
  · rw [if_pos hinc, if_neg hdec, gate_of_accepts hinc, gate_of_not_accepts hdec]
  · rw [if_neg hinc, if_pos hdec, gate_of_not_accepts hinc, gate_of_accepts hdec]
  · rw [if_neg hinc, if_neg hdec, gate_of_not_accepts hinc, gate_of_not_accepts hdec]

/-- Settles O28: it holds; the gates look at different timestamps, and an increment and a decrement undo each other. -/
theorem gateOrderUnobservable : Obligations.GateOrderUnobservable := by
  refine ⟨fun s now hf hlevels => ?_, fun s now hd => ⟨gate_comm hd now, fun hinc hdec => ?_⟩⟩
  · rw [exec_sample .low .low now hf, sampleStep, hlevels]
    rfl
  · have hne : Button.dec ≠ .inc := by decide
    rw [gate_gate hne, if_pos hdec, gate_of_accepts hinc, acceptEdge_acceptEdge hne hd]
    exact ⟨rfl, rfl, rfl⟩

/-! ### The window (R165, R166) -/

/-- The level that a SAMPLE reads on the line of a button. -/
def lineOf (b : Button) (x y : Level) : Level :=
  match b with
  | .inc => x
  | .dec => y

theorem gate_lastTs_get (s : State) (b c : Button) (now : Time) :
    (s.gate b now).lastTs.get c = if c = b ∧ s.Accepts b now then now else s.lastTs.get c := by
  by_cases ha : s.Accepts b now
  · simp [gate_of_accepts ha, PerButton.get_set, ha]
  · simp [gate_of_not_accepts ha, ha]

theorem sampleStep_lastTs_get (x y : Level) (now : Time) (s : State) (b : Button) :
    (sampleStep x y now s).lastTs.get b =
      if s.Falls b (lineOf b x y) ∧ s.Accepts b now then now else s.lastTs.get b := by
  rw [sampleStep_eq]
  cases b with
  | inc =>
    change _ = if s.Falls .inc x ∧ s.Accepts .inc now then now else s.lastTs.inc
    split_ifs <;> rfl
  | dec =>
    change _ = if s.Falls .dec y ∧ s.Accepts .dec now then now else s.lastTs.dec
    split_ifs <;> rfl

/-- A timestamp changes by an accepted edge of its button only, and then to the edge's `now`. -/
theorem exec_changes_lastTs {b : Button} (hrun : exec i s = .next t) (hne : t.lastTs.get b ≠ s.lastTs.get b) :
    ∃ now, s.Delivers i b now ∧ s.Accepts b now ∧ t.lastTs.get b = now := by
  have hedge (c : Button) (now : Time) (ht : t = s.gate c now) :
      ∃ now', s.Delivers (edgeOf c now) b now' ∧ s.Accepts b now' ∧ t.lastTs.get b = now' := by
    rw [ht, gate_lastTs_get] at hne ⊢
    obtain ⟨⟨rfl, ha⟩, -⟩ := ite_ne_right_iff.mp hne
    exact ⟨now, .inl rfl, ha, if_pos ⟨rfl, ha⟩⟩
  cases i with
  | edgeInc now => exact hedge .inc now (runEvent_next hrun).2
  | edgeDec now => exact hedge .dec now (runEvent_next hrun).2
  | sample x y now =>
    rw [(runEvent_next hrun).2, sampleStep_lastTs_get] at hne ⊢
    obtain ⟨⟨hfalls, ha⟩, -⟩ := ite_ne_right_iff.mp hne
    exact ⟨now, .inr ⟨x, y, rfl, hfalls⟩, ha, if_pos ⟨hfalls, ha⟩⟩
  | map | set | clear | renderD | renderCur | transmit | service =>
    rw [exec_eq_writing hrun] at hne
    exact absurd rfl hne

/-- Within the span of a timestamp, an edge is accepted when more than 200 ms have passed. -/
theorem accepts_add_iff {b : Button} {k : Nat} (hp : s.params.Legal) (hk : k < 2 ^ 16) :
    s.Accepts b (s.lastTs.get b + k) ↔ 200 < k := by
  have hspan : k < 2 ^ s.params.timeWidth := hk.trans_le (Nat.pow_le_pow_right (by decide) hp.timeWidth)
  have helapsed : ((s.lastTs.get b + k : Nat) - (s.lastTs.get b : Int)) % (2 ^ s.params.timeWidth : Int) = k := by
    rw [Nat.cast_add, add_sub_cancel_left]
    exact Int.emod_eq_of_lt (by omega) (by exact_mod_cast hspan)
  rw [State.Accepts, helapsed]
  omega

theorem PerButton.set_set {α : Type} (p : PerButton α) (b : Button) (v w : α) : (p.set b v).set b w = p.set b w := by
  cases b <;> rfl

/-- Settles O30: it holds; an accepted edge starts the window anew and a discarded one leaves it. -/
theorem windowRunsFromAccepted : Obligations.WindowRunsFromAccepted := by
  refine ⟨fun i s t b => exec_changes_lastTs, fun s b now hf hp => ⟨fun hna => ?_, fun ha => ?_⟩⟩
  · rw [exec_edgeOf b now hf, gate_of_not_accepts hna]
  have hlast {u : State} {k : Nat} (hu : u.lastTs = s.lastTs.set b k) : u.lastTs.get b = k := by
    rw [hu, PerButton.get_set, if_pos rfl]
  have hlater {u : State} {k : Nat} (hup : u.params = s.params) (hu : u.lastTs = s.lastTs.set b k) {j : Nat}
      (hj : j < 2 ^ 16) : u.Accepts b (k + j) ↔ 200 < j := by
    have hiff := accepts_add_iff (s := u) (b := b) (hup ▸ hp) hj
    rwa [hlast hu] at hiff
  have h150 := (hlater (u := s.acceptEdge b now) rfl rfl (j := 150) (by decide)).not.mpr (by decide)
  have h300 := (hlater (u := s.acceptEdge b now) rfl rfl (j := 300) (by decide)).mpr (by decide)
  have hset : ((s.acceptEdge b now).acceptEdge b (now + 300)).lastTs = s.lastTs.set b (now + 300) :=
    PerButton.set_set s.lastTs b now (now + 300)
  have h450 := (hlater (u := (s.acceptEdge b now).acceptEdge b (now + 300)) rfl hset (j := 150) (by decide)).not.mpr
    (by decide)
  refine ⟨s.acceptEdge b now, (s.acceptEdge b now).acceptEdge b (now + 300), ?_, rfl, ?_, ?_, hset, rfl, ?_⟩
  · rw [exec_edgeOf b now hf, gate_of_accepts ha]
  · rw [exec_edgeOf b _ (by exact hf), gate_of_not_accepts h150]
  · rw [exec_edgeOf b _ (by exact hf), gate_of_accepts h300]
  · rw [exec_edgeOf b _ (by exact hf), gate_of_not_accepts h450]

/-- Settles O31: it holds; with a timestamp of 0 an edge's `now` is the time since it. -/
theorem bootWindowDiscards : Obligations.BootWindowDiscards := by
  intro s now hf hp hnow
  have hclosed {b : Button} (hb : s.lastTs.get b = 0) : ¬ s.Accepts b now := by
    have hiff := accepts_add_iff (s := s) (b := b) (k := now) hp (Nat.lt_of_le_of_lt hnow (by decide))
    rw [hb, Nat.zero_add] at hiff
    exact fun ha => absurd (hiff.mp ha) (Nat.not_lt.mpr hnow)
  refine ⟨fun b hb => ?_, fun hlast a b => ?_⟩
  · rw [exec_edgeOf b now hf, gate_of_not_accepts (hclosed hb)]
  · rw [exec_sample a b now hf, sampleStep_eq]
    simp only [hclosed (b := .inc) (by rw [hlast]; rfl), hclosed (b := .dec) (by rw [hlast]; rfl), and_false, if_false]
    rfl

end Sys2Proof.Machine

/-! ## The assembler (spec/30_encoding.md R84, R85)

A line's operands are fitted to their fields one after the other; what is left is the encoding of one instruction. -/

namespace Sys2Proof.Machine

open Sys2Proof

variable {α : Type}

/-! ### Fitting an operand -/

theorem fit_bind (n v : Nat) (f : BitVec n → Option α) :
    (fit n v).bind f = if v < 2 ^ n then f (BitVec.ofNat n v) else none := by
  unfold fit
  split <;> rfl

theorem fitTime_bind (timeWidth t : Nat) (f : Time → Option α) :
    (fitTime timeWidth t).bind f = if t < 2 ^ timeWidth then f t else none := by
  unfold fitTime
  split <;> rfl

/-- The level written as 0 or 1. -/
def levelOfNat (v : Nat) : Level :=
  if v = 0 then .low else .high

theorem fitLevel_bind (v : Nat) (f : Level → Option α) :
    (fitLevel v).bind f = if v ≤ 1 then f (levelOfNat v) else none := by
  match v with
  | 0 => rfl
  | 1 => rfl
  | v + 2 => simp [fitLevel]

theorem toNat_bitOfLevel_levelOfNat {v : Nat} (h : v ≤ 1) : (bitOfLevel (levelOfNat v)).toNat = v := by
  match v with
  | 0 => rfl
  | 1 => rfl

theorem toNat_ofNat_of_lt {n v : Nat} (h : v < 2 ^ n) : (BitVec.ofNat n v).toNat = v := by
  rw [BitVec.toNat_ofNat, Nat.mod_eq_of_lt h]

/-! ### The lines of R84 with operands -/

theorem assemble_map (timeWidth x y : Nat) :
    assemble timeWidth (.map x y) =
      if x < 2 ^ 3 ∧ y < 2 ^ 3 then some [.command (BitVec.ofNat 32 (0x20000000 + y * 8 + x))] else none := by
  have hline : assemble timeWidth (.map x y) =
      ((fit 3 x).bind fun a => (fit 3 y).bind fun b => some [.map a b]).map (List.map encode) := rfl
  simp only [hline, fit_bind, ite_and]
  split_ifs with hx hy
  · simp [encode_map, toNat_ofNat_of_lt hx, toNat_ofNat_of_lt hy]
  · rfl
  · rfl

theorem asmSet_bind (i r g b : Nat) (f : Instr → Option α) :
    (asmSet i r g b).bind f =
      if i < 2 ^ 5 ∧ r < 2 ^ 8 ∧ g < 2 ^ 8 ∧ b < 2 ^ 8 then
        f (.set (BitVec.ofNat 5 i) (BitVec.ofNat 8 r) (BitVec.ofNat 8 g) (BitVec.ofNat 8 b)) else none := by
  have hset : asmSet i r g b =
      (fit 5 i).bind fun i => (fit 8 r).bind fun r => (fit 8 g).bind fun g => (fit 8 b).bind fun b =>
        some (.set i r g b) := rfl
  simp only [hset, fit_bind, ite_and]
  split_ifs <;> rfl

theorem assemble_set (timeWidth i r g b : Nat) :
    assemble timeWidth (.set i r g b) =
      if i < 2 ^ 5 ∧ r < 2 ^ 8 ∧ g < 2 ^ 8 ∧ b < 2 ^ 8 then
        some [.command (BitVec.ofNat 32 (0x40000000 + i * 16777216 + r * 65536 + g * 256 + b))] else none := by
  have hline : assemble timeWidth (.set i r g b) =
      ((asmSet i r g b).bind fun j => some [j]).map (List.map encode) := rfl
  rw [hline, asmSet_bind]
  split_ifs with h
  · obtain ⟨hi, hr, hg, hb⟩ := h
    simp [encode_set, toNat_ofNat_of_lt hi, toNat_ofNat_of_lt hr, toNat_ofNat_of_lt hg, toNat_ofNat_of_lt hb]
  · rfl

theorem assemble_renderD (timeWidth d : Nat) :
    assemble timeWidth (.renderD d) =
      if d < 2 ^ 4 then some [.command (BitVec.ofNat 32 (0x80000000 + d))] else none := by
  have hline : assemble timeWidth (.renderD d) =
      ((fit 4 d).bind fun d => some [.renderD d]).map (List.map encode) := rfl
  rw [hline, fit_bind]
  split_ifs with hd
  · simp [encode_renderD, toNat_ofNat_of_lt hd]
  · rfl

theorem assemble_sample (timeWidth a b t : Nat) :
    assemble timeWidth (.sample a b t) =
      if a ≤ 1 ∧ b ≤ 1 ∧ t < 2 ^ timeWidth then some [.event (BitVec.ofNat 8 (0x80 + b * 2 + a)) t] else none := by
  have hline : assemble timeWidth (.sample a b t) =
      (((fitLevel a).bind fun a => (fitLevel b).bind fun b => (fitTime timeWidth t).bind fun t =>
        some (.sample a b t)).bind fun j => some [j]).map (List.map encode) := rfl
  simp only [hline, fitLevel_bind, fitTime_bind, ite_and]
  split_ifs with ha hb ht
  · simp [encode_sample, toNat_bitOfLevel_levelOfNat ha, toNat_bitOfLevel_levelOfNat hb]
  · rfl
  · rfl
  · rfl

theorem assemble_edge (timeWidth : Nat) (b : Button) (t : Nat) :
    assemble timeWidth (.edge b t) = if t < 2 ^ timeWidth then some [encode (edgeOf b t)] else none := by
  have hline : assemble timeWidth (.edge b t) =
      (((fitTime timeWidth t).bind fun t => some (edgeOf b t)).bind fun j => some [j]).map (List.map encode) := by
    cases b <;> rfl
  rw [hline, fitTime_bind]
  split_ifs <;> rfl

/-- Settles O54: it holds; an operand fits its field exactly below the power of two of the field's width. -/
theorem assemblerWords : Obligations.AssemblerWords := by
  refine fun timeWidth => ⟨fun x y => ?_, fun i r g b => ?_, fun d => ?_, assemble_sample timeWidth,
    assemble_edge timeWidth .inc, assemble_edge timeWidth .dec, rfl, rfl, rfl, rfl⟩
  · rw [assemble_map]
    simp only [Nat.lt_succ_iff, show 2 ^ 3 = 7 + 1 from rfl]
  · rw [assemble_set]
    simp only [Nat.lt_succ_iff, show 2 ^ 5 = 31 + 1 from rfl, show 2 ^ 8 = 255 + 1 from rfl]
  · rw [assemble_renderD]
    simp only [Nat.lt_succ_iff, show 2 ^ 4 = 15 + 1 from rfl]

/-! ### The pseudo-instructions (R85) -/

theorem asmSample_of_assemble {timeWidth a b t : Nat} {ws : List PortWord}
    (h : assemble timeWidth (.sample a b t) = some ws) :
    ∃ j, asmSample timeWidth a b t = some j ∧ ws = [encode j] := by
  have hline : assemble timeWidth (.sample a b t) =
      ((asmSample timeWidth a b t).bind fun j => some [j]).map (List.map encode) := rfl
  rw [hline] at h
  cases hj : asmSample timeWidth a b t with
  | none => simp [hj] at h
  | some j => exact ⟨j, rfl, by simpa [hj] using h.symm⟩

/-- Settles O55: it holds; the expansion of a pseudo-instruction is that of the lines it stands for. -/
theorem pseudoInstructions : Obligations.PseudoInstructions := by
  refine fun timeWidth => ⟨fun x y r g b => ?_, rfl, fun b t => rfl, fun t => rfl, fun b t1 t2 ws1 ws2 h1 h2 => ?_⟩
  · split_ifs with h <;> simp [assemble, expand, h]
  · obtain ⟨j1, hj1, rfl⟩ := asmSample_of_assemble h1
    obtain ⟨j2, hj2, rfl⟩ := asmSample_of_assemble h2
    cases b with
    | inc =>
      have hj1 : asmSample timeWidth 0 1 t1 = some j1 := hj1
      simp [assemble, expand, hj1, hj2]
    | dec =>
      have hj1 : asmSample timeWidth 1 0 t1 = some j1 := hj1
      simp [assemble, expand, hj1, hj2]

end Sys2Proof.Machine

/-! ## A word placed from outside (log 10) -/

namespace Sys2Proof.Machine

open Sys2Proof

variable {i : Instr} {s : State}

theorem decode_of_decodeTableWord {nbits w : Nat} (h : decodeTableWord nbits w = some i) :
    ∃ pw, tablePortWord nbits w = some pw ∧ decode pw = .instr i := by
  unfold decodeTableWord at h
  split at h
  · cases h
  · next pw hpw =>
    split at h
    · next j hd =>
      cases h
      exact ⟨pw, hpw, hd⟩
    · cases h

/-- A word of the table's width is a command word, or an event word whose time is 0. -/
theorem tablePortWord_cases {nbits w : Nat} {pw : PortWord} (hw : w < 2 ^ nbits) (h : tablePortWord nbits w = some pw) :
    (∃ c, pw = .command c) ∨ ∃ e, pw = .event e 0 := by
  unfold tablePortWord at h
  split_ifs at h with h32 h8
  · cases h
    exact .inl ⟨_, rfl⟩
  · cases h
    subst h8
    exact .inr ⟨_, congrArg (PortWord.event _) (Nat.div_eq_of_lt hw)⟩

theorem step_present_command {w : CommandWord} (hd : decode (.command w) = .instr i) :
    step (s.present (.command w)) =
      exec i { s with fault := none, phase := .idle, txAccepts := false, holdReport := none } :=
  step_of_run (runWord_of_instr hd)

theorem step_present_event {w : EventWord} (hd : decode (.event w 0) = .instr i) :
    step (s.present (.event w 0)) = exec i { s with fault := none } := by
  have hnow : nowOfCount s.params.timeWidth 0 = 0 := Nat.zero_mod _
  exact step_of_run (runWord_of_instr (by rw [← hd, ← hnow]; rfl))

/-- Settles O45: it holds; the word stands at the front of its port and its agent has the turn. -/
theorem presentedWordRunsNext : Obligations.PresentedWordRunsNext := by
  intro s nbits w i hw htable
  obtain ⟨pw, hpw, hd⟩ := decode_of_decodeTableWord htable
  rw [State.withFetchWord, hpw]
  have henc := encodeOfDecode pw i hd
  obtain ⟨c, rfl⟩ | ⟨e, rfl⟩ := tablePortWord_cases hw hpw
  · refine ⟨_, step_present_command hd, rfl, ?_, rfl, rfl, rfl, rfl, rfl, rfl, rfl, rfl, rfl, rfl, rfl, rfl⟩
    rw [isCommand_of_encode henc]
    rfl
  · refine ⟨_, step_present_event hd, rfl, ?_, rfl, rfl, rfl, rfl, rfl, rfl, rfl, rfl, rfl, rfl, rfl, rfl⟩
    rw [isEvent_of_encode henc]
    rfl

end Sys2Proof.Machine

/-! ## Whole commands as runs of steps (spec/41_pixel_buffer.md R124, R130, spec/43_sequencer.md R190)

A command that sends a frame is its first step, the frame, and for SERVICE the steps S2 before it and S4 after it. -/

namespace Sys2Proof.Machine

open Sys2Proof

variable {i : Instr} {s t : State}

/-! ### A whole frame -/

/-- From byte 0 to the end of the hold, under the turns of a whole frame. -/
theorem runSteps_wholeFrame {c : FrameCmd} {us : Nat} {ts : List Turn} (hf : s.fault = none) (hp : s.phase = .push 0 c)
    (ht : s.turns = frameTurns us ++ ts) (hus : s.params.holdUs ≤ us) (n : Nat) :
    runSteps (76 + n) s = runSteps n
      { s with
        turns := ts, txAccepts := false, holdReport := some us, txLog := s.txLog ++ wireBytes s.pb
        frames := s.frames + 1, phase := c.afterHold } := by
  rw [← frameBytes_eq]
  refine runSteps_frame c us ts 74 0 s rfl hf hp ?_ hus n
  rw [ht, frameTurns, List.append_assoc]
  rfl

/-- A command whose first step leaves the buffer `pb` and begins its frame, from its word to the end of its hold. -/
theorem runSteps_frameCommand {c : FrameCmd} {pb : PixelBuffer} {w : CommandWord} {ws : List CommandWord}
    {accepts : Bool} {report : Option Nat} {us : Nat} {ts : List Turn} (hs : s.Ready)
    (hd : decode (.command w) = .instr i)
    (hfirst : ∀ u, firstStep i (s.withPortsOf u) = { s.withPortsOf u with pb := pb, phase := .push 0 c })
    (hc : c.afterHold = .idle) (hus : s.params.holdUs ≤ us)
    (ht : s.turns = .command accepts report :: (frameTurns us ++ ts)) (hw : s.cmdPort = w :: ws) (n : Nat) :
    runSteps (77 + n) s = runSteps n
      { s with
        turns := ts, cmdPort := ws, txAccepts := false, holdReport := some us, pb := pb
        txLog := s.txLog ++ wireBytes pb, frames := s.frames + 1 } := by
  have htake := stepRunsCommandWord s accepts report _ w ws i hs ht hw hd
  have hrun := exec_of_ready (isCommand_of_encode (encodeOfDecode _ _ hd))
    (s := s.withPortsOf
      { s with turns := frameTurns us ++ ts, txAccepts := accepts, holdReport := report, cmdPort := ws })
    ⟨hs.noFault, hs.idle⟩
  rw [hfirst] at hrun
  rw [show 77 + n = (76 + n) + 1 by omega, runSteps_succ _ (htake.trans hrun),
    runSteps_wholeFrame (by exact hs.noFault) rfl rfl (by exact hus), hc, ← hs.idle]
  rfl

/-- Settles O13: it holds; TRANSMIT's first step begins the frame of the buffer as it is. -/
theorem transmitSendsFrame : Obligations.TransmitSendsFrame := by
  intro s accepts report us ts ws hs hus ht hw
  have hd : decode (.command 0xA0000000#32) = .instr .transmit := by decide
  exact runSteps_frameCommand (c := .transmit) (pb := s.pb) hs hd (fun _ => rfl) rfl hus ht hw 0

/-- A whole RENDER of a legal digit. -/
theorem runSteps_renderD {d : Digit} {ws : List CommandWord} {accepts : Bool} {report : Option Nat} {us : Nat}
    {ts : List Turn} (hs : s.Ready) (hdigit : d.toNat ≤ 9) (hus : s.params.holdUs ≤ us)
    (ht : s.turns = .command accepts report :: (frameTurns us ++ ts))
    (hw : s.cmdPort = BitVec.ofNat 32 (0x80000000 + d.toNat) :: ws) (n : Nat) :
    runSteps (77 + n) s = runSteps n
      { s with
        turns := ts, cmdPort := ws, txAccepts := false, holdReport := some us, pb := picture s.params d
        txLog := s.txLog ++ wireBytes (picture s.params d), frames := s.frames + 1 } := by
  have hd : decode (.command (BitVec.ofNat 32 (0x80000000 + d.toNat))) = .instr (.renderD d) := by
    rw [← encode_renderD, decode_encode_renderD]
  refine runSteps_frameCommand (c := .renderD d) hs hd (fun u => ?_) rfl hus ht hw n
  have hlegal : digitLegal d = true := decide_eq_true hdigit
  rw [firstStep, renderStep, if_pos hlegal]
  rfl

/-- Settles O18: it holds; RENDER d's first step begins the frame of the digit's picture. -/
theorem renderSendsPicture : Obligations.RenderSendsPicture :=
  fun _ _ _ _ _ _ _ hs hd hus ht hw => runSteps_renderD hs hd hus ht hw 0

theorem length_wireBytes (pb : PixelBuffer) : (wireBytes pb).length = 75 := by
  rw [← frameBytes_eq, length_frameBytes]

/-- Settles O19: it holds; the picture depends on the tables and the digit only. -/
theorem renderTwiceSame : Obligations.RenderTwiceSame := by
  intro s d a r a' r' us us' ts ws hs hd hus hus' ht hw
  have hboth := (runSteps_renderD hs hd hus ht hw 77).trans
    (runSteps_renderD ⟨by exact hs.noFault, by exact hs.idle⟩ hd (by exact hus') rfl rfl 0)
  exact ⟨_, _, _, runSteps_renderD hs hd hus ht hw 0, hboth, rfl, length_wireBytes _, rfl, rfl⟩

/-! ### SERVICE -/

/-- The turn of SERVICE's S2. -/
theorem step_s2 {o : Option Digit} {a : Bool} {r : Option Nat} {ts : List Turn} (hf : s.fault = none)
    (hp : s.phase = .serve .s2 o) (ht : s.turns = .command a r :: ts) :
    step s = .next
      { s with
        turns := ts, txAccepts := a, holdReport := r, pb := picture s.params s.currentDigit
        phase := .push 0 (.service s.currentDigit) } := by
  have hcur : s.phase.current = some .service := by rw [hp]; rfl
  exact (stepContinuesCommand s a r ts .service hf ht hcur).trans (exec_service_of_s2 hf hp)

/-- The turn of SERVICE's S4. -/
theorem step_s4 {o : Option Digit} {a : Bool} {r : Option Nat} {ts : List Turn} (hf : s.fault = none)
    (hp : s.phase = .serve .s4 o) (ht : s.turns = .command a r :: ts) :
    step s = .next
      { s with turns := ts, txAccepts := a, holdReport := r, redrawPending := false, phase := .idle } := by
  have hcur : s.phase.current = some .service := by rw [hp]; rfl
  exact (stepContinuesCommand s a r ts .service hf ht hcur).trans (execService_of_s4 hf hp)

/-- Settles O23: it holds, step by step: S1, S2, the frame, S4. -/
theorem serviceShowsDigit : Obligations.ServiceShowsDigit := by
  intro s a1 r1 a2 r2 a3 r3 us ts ws hs hflag hus ht hw
  have hd : decode (.command 0xC0000000#32) = .instr .service := by decide
  have hs1 := (stepRunsCommandWord s a1 r1 _ _ ws .service hs ht hw hd).trans (exec_of_ready rfl ⟨hs.noFault, hs.idle⟩)
  rw [firstStep, serviceS1, if_pos (by exact hflag)] at hs1
  rw [runSteps_succ 78 hs1, runSteps_succ 77 (step_s2 (by exact hs.noFault) rfl rfl),
    runSteps_wholeFrame (by exact hs.noFault) rfl rfl (by exact hus) 1,
    runSteps_succ 0 (step_s4 (by exact hs.noFault) rfl rfl), ← hs.idle]
  rfl

/-! ### The initial render (R253) -/

/-- Settles O25: it holds; RENDER cur at the start of the canonical program is a whole frame of digit 0. -/
theorem bootShowsZero : Obligations.BootShowsZero := by
  intro p n evs accepts report us ts hp hus
  have hd : decode (.command 0x90000000#32) = .instr .renderCur := by decide
  have hrun := runSteps_frameCommand (c := .renderCur 0) (pb := picture p 0)
    (s := State.started p (canonicalProgram n) evs (.command accepts report :: (frameTurns us ++ ts)))
    ⟨rfl, rfl⟩ hd (fun _ => rfl) rfl hus rfl rfl 0
  have hred : (picture p 0).toList.count 0xFF0000#24 = 17 := by
    have hcolour : p.colours[0]? = some 0xFF0000#24 := by
      rw [← hp.colourZero]
      exact Vector.getElem?_eq_getElem _
    have hshows : ShowsGlyph p.glyphs[0] 0xFF0000#24 (picture p 0) :=
      showsGlyph_picture (Vector.getElem?_eq_getElem (by decide)) hcolour
    rw [hshows.count_colour (by decide), hp.glyphZero]
  exact ⟨_, hrun, rfl, rfl, hred, rfl, rfl, rfl, rfl⟩

/-! ### The lost redraw (R260) -/

theorem exec_hold_of_report {c : FrameCmd} {us : Nat} (hf : s.fault = none) (hp : s.phase = .holding c)
    (hr : s.holdReport = some us) (hus : s.params.holdUs ≤ us) :
    exec c.instr s = .next { s with frames := s.frames + 1, phase := c.afterHold } := by
  rw [exec_hold c hf hp, State.endHold, if_pos ((holdDone_iff s).mpr ⟨us, hr, hus⟩)]

/-- The turn of a hold whose timer reports HOLD_US or more. -/
theorem step_hold {c : FrameCmd} {a : Bool} {us : Nat} {ts : List Turn} (hf : s.fault = none)
    (hp : s.phase = .holding c) (hus : s.params.holdUs ≤ us) (ht : s.turns = .command a (some us) :: ts) :
    step s = .next
      { s with
        turns := ts, txAccepts := a, holdReport := some us, frames := s.frames + 1, phase := c.afterHold } := by
  have hcur : s.phase.current = some c.instr := by rw [hp]; rfl
  exact (stepContinuesCommand s a (some us) ts c.instr hf ht hcur).trans
    (exec_hold_of_report (by exact hf) (by exact hp) rfl (by exact hus))

theorem restOfService_push {us m : Nat} {k : Fin 75} {c : FrameCmd} (hm : k.val + m + 1 = 75) :
    restOfService us (.push k c) =
      List.replicate (m + 1) (.command true none) ++ [.command false (some us), .command false none] := by
  rw [restOfService, Phase.unsent, show 75 - k.val = m + 1 by omega]
  rfl

theorem drop_wireBytes (pb : PixelBuffer) : (wireBytes pb).drop 75 = [] :=
  List.drop_eq_nil_of_le (length_wireBytes pb).le

/-- What is left of a SERVICE past its S2, run to its end. -/
theorem runSteps_restOfService {us : Nat} {ts : List Turn} (hf : s.fault = none) (hin : s.InServiceFrame)
    (hus : s.params.holdUs ≤ us) (ht : s.turns = restOfService us s.phase ++ ts) :
    runSteps (restOfService us s.phase).length s = .next
      { s with
        redrawPending := false, phase := .idle, turns := ts, txAccepts := false, holdReport := none
        txLog := s.txLog ++ (wireBytes s.pb).drop (75 - s.phase.unsent), frames := s.frames + s.phase.uncounted } := by
  obtain ⟨k, d, hp⟩ | ⟨d, hp⟩ | ⟨d, hp⟩ := hin <;> rw [hp] at ht ⊢
  · obtain ⟨m, hm⟩ : ∃ m, k.val + m + 1 = 75 := ⟨74 - k.val, by omega⟩
    have hsent : 75 - (Phase.push k (.service d)).unsent = k.val := by simp only [Phase.unsent]; omega
    rw [restOfService_push hm, List.append_assoc] at ht
    have hlen : (restOfService us (.push k (.service d))).length = m + 2 + 1 := by simp [restOfService_push hm]
    rw [hlen, runSteps_frame (.service d) us (.command false none :: ts) m k s hm hf hp ht hus 1,
      runSteps_succ 0 (step_s4 (by exact hf) rfl rfl), hsent, ← frameBytes_eq]
    rfl
  · have hend := (runSteps_succ 1 (step_hold hf hp hus ht)).trans (runSteps_succ 0 (step_s4 (by exact hf) rfl rfl))
    rw [show 75 - (Phase.holding (.service d)).unsent = 75 from rfl, drop_wireBytes, List.append_nil]
    exact hend
  · have hend := runSteps_succ 0 (step_s4 hf hp ht)
    rw [show 75 - (Phase.serve .s4 d).unsent = 75 from rfl, drop_wireBytes, List.append_nil]
    exact hend

theorem pressed_ne (b : Button) {d : Digit} (hd : d.toNat ≤ 9) : pressed b d ≠ d := by
  have h : ∀ d : Digit, d.toNat ≤ 9 → pressed .inc d ≠ d ∧ pressed .dec d ≠ d := by decide
  cases b
  · exact (h d hd).1
  · exact (h d hd).2

theorem eventStep_edgeOf (b : Button) (now : Time) (s : State) : eventStep (edgeOf b now) s = s.gate b now := by
  cases b <;> rfl

theorem State.Delivers.isEvent {b : Button} {now : Time} (h : s.Delivers i b now) : isCommand i = false := by
  obtain rfl | ⟨x, y, rfl, -⟩ := h
  · exact isCommand_edgeOf b now
  · rfl

/-- An event of which one edge only is accepted does what that edge does, and keeps the levels of a SAMPLE. -/
theorem eventStep_of_one_edge {b : Button} {now : Time} (hdel : s.Delivers i b now) (hacc : s.Accepts b now)
    (hone : ¬ (s.Delivers i (otherButton b) now ∧ s.Accepts (otherButton b) now)) :
    eventStep i s = { s.acceptEdge b now with prevLevel := (eventStep i s).prevLevel } := by
  obtain rfl | ⟨x, y, rfl, hfalls⟩ := hdel
  · rw [eventStep_edgeOf, gate_of_accepts hacc]
  · have hother : ¬ (s.Falls (otherButton b) (lineOf (otherButton b) x y) ∧ s.Accepts (otherButton b) now) :=
      fun h => hone ⟨.inr ⟨x, y, rfl, h.1⟩, h.2⟩
    rw [eventStep, sampleStep_eq]
    cases b with
    | inc =>
      have hup : s.Falls .inc x ∧ s.Accepts .inc now := ⟨hfalls, hacc⟩
      have hdown : ¬ (s.Falls .dec y ∧ s.Accepts .dec now) := hother
      simp only [if_pos hup, if_neg hdown]
      rfl
    | dec =>
      have hup : ¬ (s.Falls .inc x ∧ s.Accepts .inc now) := hother
      have hdown : s.Falls .dec y ∧ s.Accepts .dec now := ⟨hfalls, hacc⟩
      simp only [if_neg hup, if_pos hdown]
      rfl

/-- Settles O24: it holds; the edge's step and the rest of the SERVICE write different fields but for the flag, which S4
clears. -/
theorem lostRedraw : Obligations.LostRedraw := by
  intro s i b now us ts hf hin hd hus ht hdel hacc hone
  have hrun := exec_event hdel.isEvent hf
  rw [eventStep_of_one_edge hdel hacc hone] at hrun
  have hrest := runSteps_restOfService (s := { s.acceptEdge b now with prevLevel := (eventStep i s).prevLevel }) hf hin
    hus ht
  exact ⟨_, _, hrun, rfl, pressed_ne b hd, hrest, rfl, exec_of_ready rfl ⟨hf, rfl⟩⟩

end Sys2Proof.Machine
